-- ==== Sys2Proof/Word.lean ====
section
/-!
DEFINITION. The words of the machine: a sample or memory byte, a register or command word.
-/

namespace Sys2Proof

/-- One sample or one byte of device memory (R3 of spec/00_scope.md, R60 of spec/20_memory.md). -/
abbrev Byte := BitVec 8

/-- A host-visible register, a command word or a device-memory byte address (REG_BITS and
ADDR_BITS of spec/00_scope.md section 4). -/
abbrev Word := BitVec 32

end Sys2Proof
end

