-- ==== Sys2Proof/Config.lean ====
section
/-!
DEFINITION. What the platform fixes (MEM_SIZE and MAX_WIDTH, arguments of the model) and the free
values: constants without a body, of which no proof can see a value.
-/

namespace Sys2Proof

/-- The parameters a model takes as arguments (spec/00_scope.md section 4, R5 and R6). REG_BASE and
BUS_PROTOCOL are absent because no rule depends on them; LUMA_ARITH is EXACT for this hardware. -/
structure Platform where
  /-- MEM_SIZE: bytes of device memory (R60). -/
  memSize : Nat
  /-- MAX_WIDTH: largest accepted width, the depth of each line buffer (R5, R200). -/
  maxWidth : Nat
  deriving DecidableEq, Repr

/-- The arguments `State.reset` is written with: MAX_WIDTH is the spec's 4096; MEM_SIZE, which the
spec leaves open, is the whole 32-bit address space. DESIGN CHOICE (log 1), unsafe. -/
def Platform.atReset : Platform := { memSize := 4294967296, maxWidth := 4096 }

/-- The content of a device-memory byte that nothing has written since power-on: one arbitrary byte
per address, the same on every read (R72, I2). Free value (log 2). -/
opaque Config.powerOnByte : Nat → Byte

/-- The n-th draw: an arbitrary byte (R79, R263, I3, I4). Free value (log 3). -/
opaque Config.freeByte : Nat → Byte

/-- The content of a line-buffer entry no pixel of the scan has written, for the draw with the given
number and the entry's index (R40, I7). Free value (log 5). -/
opaque Config.lineByte : Nat → Nat → Byte

end Sys2Proof
end

