-- ==== Sys2Proof/Syntax.lean ====
section
/-!
DEFINITION. The five commands of the core, one constructor per row of spec/opcode_table.json.
-/

namespace Sys2Proof

/-- A command (R94 of spec/30_encoding.md) with its two modifier bits as the word holds them: BZ
(CMD[4]) and RND (CMD[5]). A bit its command does not use is kept here and ignored by the command's
meaning (R97), so that no bit of a command word is dropped. -/
inductive Instr where
  | nop (bz rnd : Bool)
  | gray (bz rnd : Bool)
  | laplace (bz rnd : Bool)
  | sharpen (bz rnd : Bool)
  | pipeline (bz rnd : Bool)
  deriving DecidableEq, Repr

end Sys2Proof
end

