-- ==== Sys2Proof/WellFormed.lean ====
section
/-!
DEFINITION. The checks on terms: which command the assembler notation accepts, and which platform
parameters the spec admits. Every term of `Instr` stands for a command word (R97), so the encoding
needs no check.
-/

namespace Sys2Proof

/-- The command is written by a canonical word: every modifier bit it does not use is 0, as the
notation of R101 (spec/30_encoding.md) demands. -/
def Instr.wellFormed : Instr → Bool
  | .nop bz rnd => !bz && !rnd
  | .gray bz _ => !bz
  | .laplace _ rnd => !rnd
  | .sharpen bz rnd => !bz && !rnd
  | .pipeline _ _ => true

/-- The parameters are in the ranges the spec gives: 1 ≤ MEM_SIZE ≤ 2^32 (R60 of
spec/20_memory.md) and MAX_WIDTH at least 3 (R5 of spec/00_scope.md). -/
def Platform.wellFormed (p : Platform) : Bool :=
  decide (1 ≤ p.memSize) && decide (p.memSize ≤ 4294967296) && decide (3 ≤ p.maxWidth)

end Sys2Proof
end

