-- ==== Sys2Proof/Decode.lean ====
section
/-!
DEFINITION. The decoder of command words (R100 of spec/30_encoding.md), total on all 2^32 words, and
the encoder beside it.
-/

namespace Sys2Proof

/-- Why a command word is illegal: the two groups of R95 and R96. -/
inductive IllegalWord where
  /-- CMD[3] or CMD[31:6] is set (R95). -/
  | reservedBits
  /-- OP is 5, 6 or 7 (R96). -/
  | reservedOp
  deriving DecidableEq, Repr

/-- What the decoder of R100 answers. -/
inductive Decoded where
  | illegal (why : IllegalWord)
  | command (i : Instr)
  deriving DecidableEq, Repr

/-- OP = CMD[2:0] (R93). -/
def opField (c : Word) : BitVec 3 := c.extractLsb' 0 3

/-- BZ = CMD[4] (R93). -/
def bzField (c : Word) : Bool := c.getLsbD 4

/-- RND = CMD[5] (R93). -/
def rndField (c : Word) : Bool := c.getLsbD 5

/-- A reserved bit, CMD[3] or one of CMD[31:6], is set (R95). -/
def reservedSet (c : Word) : Bool := c.getLsbD 3 || decide (c.extractLsb' 6 26 ≠ 0#26)

/-- The command an opcode selects (the table of R94); 5, 6 and 7 select none (R96). -/
def decodeOp (op : Nat) (bz rnd : Bool) : Decoded :=
  match op with
  | 0 => .command (.nop bz rnd)
  | 1 => .command (.gray bz rnd)
  | 2 => .command (.laplace bz rnd)
  | 3 => .command (.sharpen bz rnd)
  | 4 => .command (.pipeline bz rnd)
  | _ => .illegal .reservedOp

/-- The only decode the core performs (R100): reserved bits first, then the opcode; modifier bits a
command does not use are accepted (R97). -/
def decode (c : Word) : Decoded :=
  if reservedSet c then .illegal .reservedBits
  else decodeOp (opField c).toNat (bzField c) (rndField c)

/-- The word whose bits 7:0 are the first byte: little-endian lanes (R68 of spec/20_memory.md). -/
def wordOfLanes (b0 b1 b2 b3 : Byte) : Word := b3 ++ b2 ++ b1 ++ b0

/-- The four byte lanes of a word, the lowest byte offset first (R68). -/
def lanesOfWord (c : Word) : List Byte :=
  [c.extractLsb' 0 8, c.extractLsb' 8 8, c.extractLsb' 16 8, c.extractLsb' 24 8]

/-- The decoder on the bytes of a command word in lane order: the command and the bytes left over.
Every command is one 32-bit word (R99), so fewer than four bytes hold none. -/
def decodeBytes : List Byte → Option (Instr × List Byte)
  | b0 :: b1 :: b2 :: b3 :: rest =>
    match decode (wordOfLanes b0 b1 b2 b3) with
    | .command i => some (i, rest)
    | .illegal _ => none
  | _ => none

/-- The command word whose low `nbits` bits are those of `w` and whose other bits are 0. -/
def tableWord (nbits w : Nat) : Word := BitVec.ofNat 32 (w % 2 ^ nbits)

/-- The command the decoder reads from a word numbered as spec/opcode_table.json numbers its bits. -/
def decodeTableWord (nbits w : Nat) : Option Instr :=
  (decodeBytes (lanesOfWord (tableWord nbits w))).map Prod.fst

/-- The word with the given OP, BZ and RND fields and every reserved bit 0 (R93). -/
def commandWord (op : BitVec 3) (bz rnd : Bool) : Word :=
  0#26 ++ BitVec.ofBool rnd ++ BitVec.ofBool bz ++ 0#1 ++ op

/-- The command word of a command (R93, R94); of a well-formed one, the canonical word of R101. -/
def encode : Instr → Word
  | .nop bz rnd => commandWord 0#3 bz rnd
  | .gray bz rnd => commandWord 1#3 bz rnd
  | .laplace bz rnd => commandWord 2#3 bz rnd
  | .sharpen bz rnd => commandWord 3#3 bz rnd
  | .pipeline bz rnd => commandWord 4#3 bz rnd

end Sys2Proof
end

