-- ==== Sys2Proof/Machine/State.lean ====
section
/-!
DEFINITION. The state of the machine: the registers, the latched command, the edge detector's line
buffers, device memory and the host beside it; the reasons a step can stop; the state after reset.
-/

namespace Sys2Proof.Machine

/-- A stage of a command (R39 of spec/10_state.md); IDLE is the absence of one. -/
inductive Stage where
  | gray
  | laplace
  | sharpen
  deriving DecidableEq, Repr

/-- The values of STATUS.ERR_CODE that are ever produced (R230 of spec/60_exceptions.md). -/
inductive ErrCode where
  | noError
  | illegalCmd
  | badDim
  | range
  | overlap
  | overrun
  deriving DecidableEq, Repr

/-- The nine host-visible registers (R26 of spec/10_state.md). -/
inductive Reg where
  | ctrl
  | status
  | cmd
  | width
  | height
  | rgbAddr
  | grayAddr
  | edgeAddr
  | outAddr
  deriving DecidableEq, Repr

/-- The two agents (spec/43_pipeline_control.md section 1). -/
inductive Agent where
  | host
  | block
  deriving DecidableEq, Repr

/-- What the outside world does to the core: the four transactions of R90 (spec/30_encoding.md), the
two waits of the host notation (R102), and the reset input (R260 of
spec/70_reset_and_hazards.md). -/
inductive HostOp where
  /-- RegWrite (kind 0): access size in bytes, offset in the register window, data. -/
  | regWrite (size : BitVec 3) (off : BitVec 8) (v : Word)
  /-- RegRead (kind 1): access size in bytes, offset in the register window. -/
  | regRead (size : BitVec 3) (off : BitVec 8)
  /-- HostMemWrite (kind 2): device-memory byte address, data. -/
  | memWrite (addr : Nat) (v : Byte)
  /-- HostMemRead (kind 3): device-memory byte address. -/
  | memRead (addr : Nat)
  /-- POLL: RegRead of the register until (value AND mask) = v. -/
  | poll (off : BitVec 8) (mask v : Word)
  /-- WFI: wait until the irq output is 1; no transaction. -/
  | waitIrq
  /-- The reset input is asserted (true) or released (false). -/
  | setReset (asserted : Bool)
  deriving DecidableEq, Repr

/-- What a read transaction returned to the host (R90). -/
inductive Reply where
  | reg (off : BitVec 8) (v : Word)
  | mem (addr : Nat) (v : Byte)
  deriving DecidableEq, Repr

/-- The bytes something has written, by address in strictly rising order. An address not listed is a
byte nothing has written since power-on (R72 of spec/20_memory.md). -/
abbrev Memory := List Host.Cell

/-- A range of device memory: base address and length in bytes (R65 of spec/20_memory.md). -/
structure Range where
  base : Nat
  len : Nat
  deriving DecidableEq, Repr

/-- The latched command L (R38 of spec/10_state.md). -/
structure Latch where
  /-- The latched command word, whose fields are L.op, L.bz and L.rnd. -/
  cmd : Word
  /-- L.W -/
  width : BitVec 16
  /-- L.H -/
  height : BitVec 16
  /-- L.rgb -/
  rgb : Word
  /-- L.gray -/
  gray : Word
  /-- L.edge -/
  edge : Word
  /-- L.out -/
  out : Word
  /-- L.stages: the stages still to run. -/
  stages : List Stage
  deriving DecidableEq, Repr

/-- One line buffer (R200 of spec/43_pipeline_control.md): the entries the scan has written, by
index; an entry not listed holds the unspecified byte of the draw `stamp` (R40). -/
structure LineBuffer where
  stamp : Nat
  cells : List Host.Cell
  deriving DecidableEq, Repr

/-- The 3×3 window (R200): `wrc` is w[r][c], c = 2 the newest column. -/
structure Window where
  w00 : Byte
  w01 : Byte
  w02 : Byte
  w10 : Byte
  w11 : Byte
  w12 : Byte
  w20 : Byte
  w21 : Byte
  w22 : Byte
  deriving DecidableEq, Repr

/-- The internal state of the LAPLACE engine (R40 of spec/10_state.md, R200). -/
structure Engine where
  /-- LB0, which holds the older row. -/
  lb0 : LineBuffer
  /-- LB1, which holds the newer row. -/
  lb1 : LineBuffer
  window : Window
  /-- The scan position: row of the pixel visited last. -/
  y : Nat
  /-- The scan position: column of the pixel visited last. -/
  x : Nat
  deriving DecidableEq, Repr

/-- The state of the core, of device memory and of the host that drives it. INVENTORY.md lists each
field with its rule. STATUS.STAGE, STATUS.IRQ and the irq output are views (Flags.lean). -/
structure State where
  /-- CTRL.IE (R27). -/
  ie : Bool
  /-- STATUS.BUSY (R28). -/
  busy : Bool
  /-- STATUS.DONE (R28). -/
  done : Bool
  /-- STATUS.ERR (R28). -/
  err : Bool
  /-- STATUS.ERR_CODE (R28, R230). -/
  errCode : ErrCode
  /-- CMD (R31). -/
  cmd : Word
  /-- WIDTH[15:0] (R30). -/
  width : BitVec 16
  /-- HEIGHT[15:0] (R32). -/
  height : BitVec 16
  /-- RGB_ADDR (R33). -/
  rgbAddr : Word
  /-- GRAY_ADDR (R34). -/
  grayAddr : Word
  /-- EDGE_ADDR (R35). -/
  edgeAddr : Word
  /-- OUT_ADDR (R36). -/
  outAddr : Word
  /-- The latched command L (R38). -/
  latch : Latch
  /-- The line-buffered LAPLACE engine (R40, R200). -/
  engine : Engine
  /-- Device memory (R60). -/
  mem : Memory
  /-- The reset input is asserted (R260, R261). -/
  inReset : Bool
  /-- The model's argument: MEM_SIZE and MAX_WIDTH; no step changes it (log 1). -/
  platform : Platform
  /-- The host's operations still to be performed (R102, log 7). -/
  host : List HostOp
  /-- Which agent moves next when both can (R244, I17, log 6). -/
  turns : List Agent
  /-- What the host's reads have returned, oldest first (R90). -/
  replies : List Reply
  /-- The host has broken R79 during the running command (log 8). -/
  raced : Bool
  /-- The number of draws taken so far (log 3). -/
  draws : Nat
  deriving DecidableEq, Repr

/-- Why a step stops the machine. -/
inductive Fault where
  /-- Raised by a HostMemWrite or HostMemRead whose address is not below MEM_SIZE: R60
  (spec/20_memory.md) gives device memory no such address. Safe (log 10). -/
  | noSuchAddress
  /-- Raised by a stage step where the latched command is none that a START can have issued; no run
  from reset reaches such a state. Safe (log 11). -/
  | sequencerCorrupt
  deriving DecidableEq, Repr

/-- Why a step gives no meaning. -/
inductive Refusal where
  /-- Raised by an arm of `exec` whose instruction has no meaning yet; no arm raises it. Safe. -/
  | notModelled (mnemonic : String)
  deriving DecidableEq, Repr

/-- The outcome of one step of this machine. -/
abbrev Outcome := Host.Outcome State Fault Refusal

/-- The latched command after reset: L.stages is empty (R43); the other fields, unspecified and
unread there, are 0. DESIGN CHOICE (log 4), unsafe. -/
def Latch.reset : Latch :=
  { cmd := 0#32, width := 0#16, height := 0#16, rgb := 0#32, gray := 0#32, edge := 0#32,
    out := 0#32, stages := [] }

/-- The engine after reset: no line-buffer entry written (each is a free value); the window and the
scan position, unspecified (R40, R43), are 0. DESIGN CHOICE (log 5), unsafe. -/
def Engine.reset : Engine :=
  { lb0 := { stamp := 0, cells := [] }, lb1 := { stamp := 1, cells := [] },
    window := { w00 := 0#8, w01 := 0#8, w02 := 0#8, w10 := 0#8, w11 := 0#8, w12 := 0#8,
                w20 := 0#8, w21 := 0#8, w22 := 0#8 },
    y := 0, x := 0 }

/-- The machine right after reset (R43 of spec/10_state.md, R260 and R264 of
spec/70_reset_and_hazards.md), with nothing written in device memory and no host operation
pending. -/
def State.reset : State :=
  { ie := false, busy := false, done := false, err := false, errCode := .noError,
    cmd := 0#32, width := 0#16, height := 0#16, rgbAddr := 0#32, grayAddr := 0#32,
    edgeAddr := 0#32, outAddr := 0#32, latch := Latch.reset, engine := Engine.reset, mem := [],
    inReset := false, platform := Platform.atReset, host := [], turns := [], replies := [],
    raced := false, draws := 0 }

end Sys2Proof.Machine
end

