-- ==== Sys2Proof/Machine/Operands.lean ====
section
/-!
DEFINITION. The operands of a command, read from the latched command L: dimensions, buffer ranges,
stages, and the START-time checks made on them.
-/

namespace Sys2Proof.Machine

/-- L.op = CMD[2:0] of the latched word (R38 of spec/10_state.md). -/
def Latch.op (l : Latch) : BitVec 3 := opField l.cmd

/-- L.bz = CMD[4] of the latched word (R38). -/
def Latch.bz (l : Latch) : Bool := bzField l.cmd

/-- L.rnd = CMD[5] of the latched word (R38). -/
def Latch.rnd (l : Latch) : Bool := rndField l.cmd

/-- W, the unsigned width (R98 of spec/30_encoding.md). -/
def Latch.w (l : Latch) : Nat := l.width.toNat

/-- H, the unsigned height (R98). -/
def Latch.h (l : Latch) : Nat := l.height.toNat

/-- W·H, the number of pixels, exact (R98). -/
def Latch.pixels (l : Latch) : Nat := l.w * l.h

/-- The RGB range of L: 3·W·H bytes (R62 and R65 of spec/20_memory.md). -/
def Latch.rgbRange (l : Latch) : Range := { base := l.rgb.toNat, len := 3 * l.pixels }

/-- The GRAY range of L: W·H bytes (R63, R65). -/
def Latch.grayRange (l : Latch) : Range := { base := l.gray.toNat, len := l.pixels }

/-- The EDGE range of L: W·H bytes (R63, R65). -/
def Latch.edgeRange (l : Latch) : Range := { base := l.edge.toNat, len := l.pixels }

/-- The OUT range of L: W·H bytes (R63, R65). -/
def Latch.outRange (l : Latch) : Range := { base := l.out.toNat, len := l.pixels }

/-- The address lies in the range. -/
def Range.has (r : Range) (a : Nat) : Bool := decide (r.base ≤ a) && decide (a < r.base + r.len)

/-- The range ends at or below MEM_SIZE, by exact integers (R234 of spec/60_exceptions.md). -/
def Range.fits (r : Range) (memSize : Nat) : Bool := decide (r.base + r.len ≤ memSize)

/-- Two ranges intersect (R235). -/
def Range.meets (r q : Range) : Bool :=
  decide (r.base < q.base + q.len) && decide (q.base < r.base + r.len)

/-- The stages a command runs, in order (R94, R192). -/
def stagesOf : Instr → List Stage
  | .nop _ _ => []
  | .gray _ _ => [.gray]
  | .laplace _ _ => [.laplace]
  | .sharpen _ _ => [.sharpen]
  | .pipeline _ _ => [.gray, .laplace, .sharpen]

/-- The ranges a command uses, in the order they are checked (the table of R234). -/
def usedRanges (i : Instr) (l : Latch) : List Range :=
  match i with
  | .nop _ _ => []
  | .gray _ _ => [l.rgbRange, l.grayRange]
  | .laplace _ _ => [l.grayRange, l.edgeRange]
  | .sharpen _ _ => [l.grayRange, l.edgeRange, l.outRange]
  | .pipeline _ _ => [l.rgbRange, l.grayRange, l.edgeRange, l.outRange]

/-- The ranges a command writes (R65; for PIPELINE the three of R263). The whole EDGE range counts
as written by LAPLACE, as in the checks (R146). DEDUCED (log 8). -/
def writeRanges (i : Instr) (l : Latch) : List Range :=
  match i with
  | .nop _ _ => []
  | .gray _ _ => [l.grayRange]
  | .laplace _ _ => [l.edgeRange]
  | .sharpen _ _ => [l.outRange]
  | .pipeline _ _ => [l.grayRange, l.edgeRange, l.outRange]

/-- The pairs of ranges that must not intersect, the written one first (the table of R235). -/
def overlapPairs (i : Instr) (l : Latch) : List (Range × Range) :=
  match i with
  | .nop _ _ => []
  | .gray _ _ => [(l.grayRange, l.rgbRange)]
  | .laplace _ _ => [(l.edgeRange, l.grayRange)]
  | .sharpen _ _ => [(l.outRange, l.grayRange), (l.outRange, l.edgeRange)]
  | .pipeline _ _ =>
    [(l.grayRange, l.rgbRange), (l.edgeRange, l.grayRange), (l.outRange, l.grayRange),
     (l.outRange, l.edgeRange)]

/-- The command has operands to check: every command but NOP (R236). -/
def hasOperands : Instr → Bool
  | .nop _ _ => false
  | _ => true

/-- W = 0, H = 0 or W > MAX_WIDTH (R233). -/
def badDim (l : Latch) (p : Platform) : Bool :=
  decide (l.w = 0) || decide (l.h = 0) || decide (p.maxWidth < l.w)

/-- The checks of R236 after the decode, in their order: the first that fails names the error. -/
def checkOperands (i : Instr) (l : Latch) (p : Platform) : ErrCode :=
  if !hasOperands i then .noError
  else if badDim l p then .badDim
  else if (usedRanges i l).any (fun r => !r.fits p.memSize) then .range
  else if (overlapPairs i l).any (fun q => q.1.meets q.2) then .overlap
  else .noError

/-- The whole check of R236 on a latched command: ILLEGAL_CMD first (R231). -/
def checkLatch (l : Latch) (p : Platform) : ErrCode :=
  match decode l.cmd with
  | .illegal _ => .illegalCmd
  | .command i => checkOperands i l p

/-- The ranges the latched command uses (R65). -/
def Latch.used (l : Latch) : List Range :=
  match decode l.cmd with
  | .illegal _ => []
  | .command i => usedRanges i l

/-- The ranges the latched command writes (R65). -/
def Latch.written (l : Latch) : List Range :=
  match decode l.cmd with
  | .illegal _ => []
  | .command i => writeRanges i l

/-- The address lies in one of the ranges. -/
def inRanges (rs : List Range) (a : Nat) : Bool := rs.any (fun r => r.has a)

/-- The state is one in which the stage steps of command `i` may be taken: `i` is the latched command
and its checks hold, as after a START that issued it (R191, R192). -/
def running (i : Instr) (s : State) : Bool :=
  s.busy && decide (decode s.latch.cmd = .command i) &&
    decide (checkOperands i s.latch s.platform = .noError)

end Sys2Proof.Machine
end

