-- ==== Sys2Proof/Machine/Flags.lean ====
section
/-!
DEFINITION. The flags: STATUS and CTRL as words, the irq output, and the changes of the status flags
that START, rejection, overrun and acknowledgement make.
-/

namespace Sys2Proof.Machine

/-- The irq output, IE AND (DONE OR ERR), a level (R41 of spec/10_state.md, R243). -/
def State.irq (s : State) : Bool := s.ie && (s.done || s.err)

/-- The sequencer position L.stage (R39): the head of L.stages while BUSY = 1, IDLE (none) while
BUSY = 0. -/
def State.stage (s : State) : Option Stage := if s.busy then s.latch.stages.head? else none

/-- The code STATUS.STAGE reads (R39): 0 IDLE, 1 GRAY, 2 LAPLACE, 3 SHARPEN. -/
def stageCode : Option Stage → BitVec 2
  | none => 0#2
  | some .gray => 1#2
  | some .laplace => 2#2
  | some .sharpen => 3#2

/-- The code STATUS.ERR_CODE reads (R230 of spec/60_exceptions.md). -/
def ErrCode.code : ErrCode → BitVec 4
  | .noError => 0#4
  | .illegalCmd => 1#4
  | .badDim => 2#4
  | .range => 3#4
  | .overlap => 4#4
  | .overrun => 5#4

/-- CTRL as RegRead returns it: START reads 0, bits 31:2 read 0 (R27). -/
def State.ctrlWord (s : State) : Word := 0#30 ++ BitVec.ofBool s.ie ++ 0#1

/-- STATUS as RegRead returns it (R28 and the decode of spec/30_encoding.md section 1). -/
def State.statusWord (s : State) : Word :=
  0#21 ++ BitVec.ofBool s.irq ++ stageCode s.stage ++ s.errCode.code ++ 0#1 ++
    BitVec.ofBool s.err ++ BitVec.ofBool s.done ++ BitVec.ofBool s.busy

/-- The accepted START's first act: DONE, ERR and ERR_CODE become 0 (R191). -/
def clearStatus (s : State) : State := { s with done := false, err := false, errCode := .noError }

/-- A rejected START (R240), the whole of the core's error entry: ERR, ERR_CODE and DONE in one
write; BUSY stays 0, nothing is saved, no memory access. -/
def reject (e : ErrCode) (s : State) : State := { s with done := true, err := true, errCode := e }

/-- A START while BUSY = 1 (R239): ERR and ERR_CODE = 5, nothing else. -/
def overrun (s : State) : State := { s with err := true, errCode := .overrun }

/-- A RegWrite to STATUS: bit 1 clears DONE, bit 2 clears ERR and with it ERR_CODE (R24, R29, R241);
the other bits are read-only or reserved (R23, R28). -/
def acknowledge (v : Word) (s : State) : State :=
  { s with
    done := s.done && !v.getLsbD 1
    err := s.err && !v.getLsbD 2
    errCode := if v.getLsbD 2 then .noError else s.errCode }

end Sys2Proof.Machine
end

