-- ==== Sys2Proof/Machine/Ops.lean ====
section
/-!
DEFINITION. The operations the meanings share: device memory, free values, latching and issuing a
command, advancing the sequencer, reset, and the host's memory accesses.
-/

namespace Sys2Proof.Machine

/-- What a list of cells holds at a key, if anything. -/
def Memory.find : Memory → Nat → Option Byte
  | [], _ => none
  | (b, v) :: rest, a => if a = b then some v else Memory.find rest a

/-- MemRead(addr, 1) (R66, R71 of spec/20_memory.md): the last value written, or the unspecified
value of a byte nothing has written since power-on (R72). -/
def Memory.read (m : Memory) (a : Nat) : Byte := (m.find a).getD (Config.powerOnByte a)

/-- MemWrite(addr, 1, v) (R66): keeps the cells in strictly rising order of address. -/
def Memory.write : Memory → Nat → Byte → Memory
  | [], a, v => [(a, v)]
  | (b, u) :: rest, a, v =>
    if a < b then (a, v) :: (b, u) :: rest
    else if a = b then (a, v) :: rest
    else (b, u) :: Memory.write rest a v

/-- A list of byte writes, performed from its head on. -/
def Memory.writeAll : Memory → List Host.Cell → Memory
  | m, [] => m
  | m, c :: rest => Memory.writeAll (m.write c.1 c.2) rest

/-- The canonical form of a memory: addresses strictly rising. A listed byte has been written; an
unlisted one reads as no byte of the list (log 2). -/
abbrev Memory.wf (m : Memory) : Prop := m.Pairwise (fun b c => b.1 < c.1)

/-- The addresses of a range, in rising order. -/
def Range.addresses (r : Range) : List Nat := (List.range r.len).map (fun k => r.base + k)

/-- A cell for each address, each holding a draw of its own, the first numbered `n`. -/
def drawCells : Nat → List Nat → List Host.Cell
  | _, [] => []
  | n, a :: rest => (a, Config.freeByte n) :: drawCells (n + 1) rest

/-- Every byte of the ranges becomes a draw of its own (R79 of spec/20_memory.md, R263 of
spec/70_reset_and_hazards.md). -/
def spoil (rs : List Range) (s : State) : State :=
  let cells := drawCells s.draws (rs.flatMap Range.addresses)
  { s with mem := s.mem.writeAll cells, draws := s.draws + cells.length }

/-- Latch L from the registers (R38 of spec/10_state.md, R191); L.stages is set when the command is
issued. -/
def latchCommand (s : State) : State :=
  { s with
    latch :=
      { cmd := s.cmd, width := s.width, height := s.height, rgb := s.rgbAddr, gray := s.grayAddr,
        edge := s.edgeAddr, out := s.outAddr, stages := [] } }

/-- Issue a command whose checks hold (R192): its stages, BUSY = 1. -/
def issueStages (i : Instr) (s : State) : State :=
  { s with busy := true, raced := false, latch := { s.latch with stages := stagesOf i } }

/-- The part of an accepted START that follows the decode, for a command with stages: the checks of
R236, then the rejection of R240 or the issue of R192. -/
def issueOrReject (i : Instr) (s : State) : State :=
  match checkOperands i s.latch s.platform with
  | .noError => issueStages i s
  | e => reject e s

/-- NOP's completion at its START (R192, R205). -/
def completeAtStart (s : State) : State := { s with done := true }

/-- The end of a command (R197): L.stage IDLE, BUSY = 0 and DONE = 1 in one update. -/
def finish (s : State) : State :=
  { s with busy := false, done := true, raced := false, latch := { s.latch with stages := [] } }

/-- The end of a command whose buffers the host has touched (R79): every byte of its write ranges is
a draw. -/
def finishRaced (s : State) : State := finish (if s.raced then spoil s.latch.written s else s)

/-- After a stage step the head of L.stages is removed, and the command ends when none is left
(R197). -/
def advance (s : State) : State :=
  match s.latch.stages.tail with
  | [] => finishRaced s
  | rest => { s with latch := { s.latch with stages := rest } }

/-- The registers and the latched command at their reset values (R43, R260); device memory is not
changed (R262), and the platform, the host's program and schedule are not the core's. -/
def resetRegisters (s : State) : State :=
  { s with
    ie := State.reset.ie, busy := State.reset.busy, done := State.reset.done,
    err := State.reset.err, errCode := State.reset.errCode, cmd := State.reset.cmd,
    width := State.reset.width, height := State.reset.height, rgbAddr := State.reset.rgbAddr,
    grayAddr := State.reset.grayAddr, edgeAddr := State.reset.edgeAddr,
    outAddr := State.reset.outAddr, latch := State.reset.latch, engine := State.reset.engine,
    raced := State.reset.raced }

/-- The reset input becomes asserted (R260): the reset state; a running command is abandoned and
every byte of its write ranges is a draw (R263). -/
def assertReset (s : State) : State :=
  { resetRegisters (if s.busy then spoil s.latch.written s else s) with inReset := true }

/-- The reset input is released: the core keeps its reset state and waits for a START (R264). -/
def releaseReset (s : State) : State := { s with inReset := false }

/-- Add what a read returned to the replies. -/
def addReply (r : Reply) (s : State) : State := { s with replies := s.replies ++ [r] }

/-- HostMemWrite (R90): the byte is written; a write to a byte of a range the running command uses
breaks R79. An address that device memory does not have (R60) faults. -/
def hostMemWrite (addr : Nat) (v : Byte) (s : State) : Outcome :=
  if addr < s.platform.memSize then
    .next { s with mem := s.mem.write addr v
                   raced := s.raced || (s.busy && inRanges s.latch.used addr) }
  else .fault .noSuchAddress

/-- HostMemRead (R90): returns the byte; a read of a byte the running command writes breaks R79 and
returns a draw. An address that device memory does not have (R60) faults. -/
def hostMemRead (addr : Nat) (s : State) : Outcome :=
  if addr < s.platform.memSize then
    if s.busy && inRanges s.latch.written addr then
      .next (addReply (.mem addr (Config.freeByte s.draws))
        { s with raced := true, draws := s.draws + 1 })
    else .next (addReply (.mem addr (s.mem.read addr)) s)
  else .fault .noSuchAddress

/-- The value clamped to [0, 255] and stored as a sample (R3, R7 of spec/00_scope.md). -/
def clampByte (v : Int) : Byte :=
  if v < 0 then 0#8 else if 255 < v then 255#8 else BitVec.ofInt 8 v

end Sys2Proof.Machine
end

