-- ==== Sys2Proof/Machine/Grayscale.lean ====
section
/-!
DEFINITION. The grayscale converter (spec/40_grayscale.md): the luma function, the GRAY stage and the
GRAY command.
-/

namespace Sys2Proof.Machine

/-- The weighted sum s = 299·r + 587·g + 114·b, exact (R120, R121). -/
def weightedSum (r g b : Byte) : Nat := 299 * r.toNat + 587 * g.toNat + 114 * b.toNat

/-- The luma of one pixel (R120): the sum in thousandths, truncated (rnd = 0) or rounded with ties
upward (rnd = 1), then clamped. -/
def luma (rnd : Bool) (r g b : Byte) : Byte :=
  clampByte (if rnd then (weightedSum r g b + 500) / 1000 else weightedSum r g b / 1000 : Nat)

/-- Luma sample `i`: the luma of samples 0, 1 and 2 of pixel `i` of the RGB raster (R62, R122). -/
def lumaAt (rnd : Bool) (l : Latch) (m : Memory) (i : Nat) : Byte :=
  luma rnd (m.read (l.rgb.toNat + 3 * i)) (m.read (l.rgb.toNat + 3 * i + 1))
    (m.read (l.rgb.toNat + 3 * i + 2))

/-- The byte writes of GRAY (R125): every byte of the GRAY range once. -/
def grayCells (rnd : Bool) (l : Latch) (m : Memory) : List Host.Cell :=
  (List.range l.pixels).map (fun i => (l.gray.toNat + i, lumaAt rnd l m i))

/-- The GRAY stage on device memory as it stands when the step is taken (R125, R194). -/
def grayStage (rnd : Bool) (s : State) : State :=
  { s with mem := s.mem.writeAll (grayCells rnd s.latch s.mem) }

/-- GRAY (R125): at its START the checks and the issue; while it runs, its one stage step. BZ is
ignored (R97). -/
def execGray (bz rnd : Bool) (s : State) : Outcome :=
  if !s.busy then .next (issueOrReject (.gray bz rnd) s)
  else if !running (.gray bz rnd) s then .fault .sequencerCorrupt
  else match s.latch.stages with
    | .gray :: _ => .next (advance (grayStage rnd s))
    | _ => .fault .sequencerCorrupt

end Sys2Proof.Machine
end

