-- ==== Sys2Proof/Machine/LineBuffer.lean ====
section
/-!
DEFINITION. The raster, the Z raster the stencil reads, and the line-buffered raster scan by which
the LAPLACE stage is realised (spec/41_laplacian.md section 1, spec/43_pipeline_control.md
section 3).
-/

namespace Sys2Proof.Machine

/-- A pixel by row and column. -/
abbrev Pixel := Nat × Nat

/-- The pixels of a W×H raster in raster order: y from 0 to H-1, within a row x from 0 to W-1 (R8 of
spec/00_scope.md, R201). -/
def rasterPixels (w h : Nat) : List Pixel :=
  (List.range h).flatMap (fun y => (List.range w).map (fun x => (y, x)))

/-- The pixel lies on the border: x = 0, y = 0, x = W-1 or y = H-1 (spec/00_scope.md section 5). -/
def onBorder (w h : Nat) (p : Pixel) : Bool :=
  decide (p.2 = 0) || decide (p.1 = 0) || decide (p.2 + 1 = w) || decide (p.1 + 1 = h)

/-- Z(y, x): the luma raster with its own border forced to zero (R140). -/
def zSample (l : Latch) (m : Memory) (y x : Nat) : Byte :=
  if onBorder l.w l.h (y, x) then 0#8 else m.read (l.gray.toNat + y * l.w + x)

/-- The border zeros LAPLACE writes when BZ = 1; none when BZ = 0 (R145). -/
def borderCells (bz : Bool) (l : Latch) : List Host.Cell :=
  if bz then
    ((rasterPixels l.w l.h).filter (onBorder l.w l.h)).map
      (fun p => (l.edge.toNat + p.1 * l.w + p.2, 0#8))
  else []

/-- Entry `i` of a line buffer (R200); an entry the scan has not written is unspecified (R40). -/
def LineBuffer.entry (lb : LineBuffer) (i : Nat) : Byte :=
  (Memory.find lb.cells i).getD (Config.lineByte lb.stamp i)

/-- Entry `i` of a line buffer is written. -/
def LineBuffer.store (lb : LineBuffer) (i : Nat) (v : Byte) : LineBuffer :=
  { lb with cells := Memory.write lb.cells i v }

/-- The window shifts left by one column and takes a new one (R201). -/
def Window.shift (w : Window) (top mid new : Byte) : Window :=
  { w00 := w.w01, w01 := w.w02, w02 := top,
    w10 := w.w11, w11 := w.w12, w12 := mid,
    w20 := w.w21, w21 := w.w22, w22 := new }

/-- The filter value of the window's centre (R201). -/
def Window.filterValue (w : Window) : Int :=
  4 * (w.w11.toNat : Int) - w.w01.toNat - w.w21.toNat - w.w10.toNat - w.w12.toNat

/-- The engine's state after it takes the sample `z` of pixel (y, x) (the body of R201's loop). -/
def Engine.take (e : Engine) (y x : Nat) (z : Byte) : Engine :=
  { lb0 := e.lb0.store x (e.lb1.entry x)
    lb1 := e.lb1.store x z
    window := e.window.shift (e.lb0.entry x) (e.lb1.entry x) z
    y := y
    x := x }

/-- The byte the engine writes at pixel (y, x), from its state after taking that pixel's sample: the
filtered pixel (y-1, x-1) where y ≥ 2 and x ≥ 2, nothing elsewhere (R201). -/
def Engine.emit (e : Engine) (l : Latch) (y x : Nat) : List Host.Cell :=
  if 2 ≤ y ∧ 2 ≤ x then
    [(l.edge.toNat + (y - 1) * l.w + (x - 1), clampByte e.window.filterValue)]
  else []

/-- The engine's scan of a list of pixels: its state at the end and the bytes it writes, in
order. -/
def Engine.scan (l : Latch) (m : Memory) : List Pixel → Engine → Engine × List Host.Cell
  | [], e => (e, [])
  | p :: rest, e =>
    let e' := e.take p.1 p.2 (zSample l m p.1 p.2)
    let r := Engine.scan l m rest e'
    (r.1, e'.emit l p.1 p.2 ++ r.2)

/-- Every byte the engine writes for a raster: the scan in raster order, then the border zeros
(R201). -/
def engineCells (bz : Bool) (l : Latch) (m : Memory) (e : Engine) : List Host.Cell :=
  (Engine.scan l m (rasterPixels l.w l.h) e).2 ++ borderCells bz l

/-- The engine before a scan: what the line buffers and the window hold is unspecified (R40, I7), so
every entry is a draw, numbered from `n` on; the scan starts at pixel (0, 0). -/
def Engine.unspecified (n : Nat) : Engine :=
  { lb0 := { stamp := n, cells := [] }
    lb1 := { stamp := n + 1, cells := [] }
    window :=
      { w00 := Config.freeByte n, w01 := Config.freeByte (n + 1), w02 := Config.freeByte (n + 2),
        w10 := Config.freeByte (n + 3), w11 := Config.freeByte (n + 4),
        w12 := Config.freeByte (n + 5), w20 := Config.freeByte (n + 6),
        w21 := Config.freeByte (n + 7), w22 := Config.freeByte (n + 8) }
    y := 0
    x := 0 }

/-- The number of draws `Engine.unspecified` takes. -/
def engineDraws : Nat := 9

end Sys2Proof.Machine
end

