-- ==== Sys2Proof/Machine/Laplacian.lean ====
section
/-!
DEFINITION. The Laplacian edge detector (spec/41_laplacian.md): the filter value, the LAPLACE stage
and the LAPLACE command.
-/

namespace Sys2Proof.Machine

/-- The stencil entry S[ky+1][kx+1], by row ky+1 and column kx+1 (R142). -/
def stencil (r c : Nat) : Int :=
  if r = 1 ∧ c = 1 then 4 else if r = 1 ∨ c = 1 then -1 else 0

/-- The filter value f(x, y) of an interior pixel: the exact signed sum, over the 3×3 neighbourhood,
of stencil entry times Z sample (R143). -/
def filterValue (l : Latch) (m : Memory) (y x : Nat) : Int :=
  ((List.range 3).flatMap (fun r => (List.range 3).map (fun c =>
    stencil r c * ((zSample l m (y + r - 1) (x + c - 1)).toNat : Int)))).sum

/-- The byte LAPLACE stores for an interior pixel (R144). -/
def edgeAt (l : Latch) (m : Memory) (y x : Nat) : Byte := clampByte (filterValue l m y x)

/-- The interior byte writes of LAPLACE (R144, R146), in raster order. -/
def interiorCells (l : Latch) (m : Memory) : List Host.Cell :=
  ((rasterPixels l.w l.h).filter (fun p => !onBorder l.w l.h p)).map
    (fun p => (l.edge.toNat + p.1 * l.w + p.2, edgeAt l m p.1 p.2))

/-- The byte writes of LAPLACE (R146): the interior, then the border as BZ says. -/
def laplaceCells (bz : Bool) (l : Latch) (m : Memory) : List Host.Cell :=
  interiorCells l m ++ borderCells bz l

/-- The LAPLACE stage (R146, R194): device memory takes the writes of R146, and the engine is left as
its scan of the same raster leaves it (R201), from content that is unspecified (R40). -/
def laplaceStage (bz : Bool) (s : State) : State :=
  { s with
    mem := s.mem.writeAll (laplaceCells bz s.latch s.mem)
    engine := (Engine.scan s.latch s.mem (rasterPixels s.latch.w s.latch.h)
      (Engine.unspecified s.draws)).1
    draws := s.draws + engineDraws }

/-- LAPLACE (R146): at its START the checks and the issue; while it runs, its one stage step. RND is
ignored (R97). -/
def execLaplace (bz rnd : Bool) (s : State) : Outcome :=
  if !s.busy then .next (issueOrReject (.laplace bz rnd) s)
  else if !running (.laplace bz rnd) s then .fault .sequencerCorrupt
  else match s.latch.stages with
    | .laplace :: _ => .next (advance (laplaceStage bz s))
    | _ => .fault .sequencerCorrupt

end Sys2Proof.Machine
end

