-- ==== Sys2Proof/Machine/Sharpener.lean ====
section
/-!
DEFINITION. The sharpener (spec/42_sharpener.md): the SHARPEN stage and the SHARPEN command.
-/

namespace Sys2Proof.Machine

/-- The output sample of pixel `i`: clamp(O_i + E_i, 0, 255), the sum exact (R170). -/
def sharpAt (l : Latch) (m : Memory) (i : Nat) : Byte :=
  clampByte (((m.read (l.gray.toNat + i)).toNat : Int) + (m.read (l.edge.toNat + i)).toNat)

/-- The byte writes of SHARPEN (R172): every byte of the OUT range once, border included. -/
def sharpenCells (l : Latch) (m : Memory) : List Host.Cell :=
  (List.range l.pixels).map (fun i => (l.out.toNat + i, sharpAt l m i))

/-- The SHARPEN stage on device memory as it stands when the step is taken (R172, R194). -/
def sharpenStage (s : State) : State :=
  { s with mem := s.mem.writeAll (sharpenCells s.latch s.mem) }

/-- SHARPEN (R172): at its START the checks and the issue; while it runs, its one stage step. Both
modifiers are ignored (R97). -/
def execSharpen (bz rnd : Bool) (s : State) : Outcome :=
  if !s.busy then .next (issueOrReject (.sharpen bz rnd) s)
  else if !running (.sharpen bz rnd) s then .fault .sequencerCorrupt
  else match s.latch.stages with
    | .sharpen :: _ => .next (advance (sharpenStage s))
    | _ => .fault .sequencerCorrupt

end Sys2Proof.Machine
end

