-- ==== Sys2Proof/Machine/Control.lean ====
section
/-!
DEFINITION. The two commands the pipeline control gives itself (spec/43_pipeline_control.md
section 4): NOP and PIPELINE.
-/

namespace Sys2Proof.Machine

/-- NOP (R205): completes at its START without touching device memory, with no operand checked. It
has no stage, so no stage step of it exists; both modifiers are ignored (R97). -/
def execNop (_bz _rnd : Bool) (s : State) : Outcome :=
  if s.busy then .fault .sequencerCorrupt else .next (completeAtStart s)

/-- PIPELINE (R206): at its START the checks and the issue; while it runs, its three stage steps in
the order of L.stages (R198), GRAY under RND, LAPLACE under BZ, SHARPEN. -/
def execPipeline (bz rnd : Bool) (s : State) : Outcome :=
  if !s.busy then .next (issueOrReject (.pipeline bz rnd) s)
  else if !running (.pipeline bz rnd) s then .fault .sequencerCorrupt
  else match s.latch.stages with
    | .gray :: _ => .next (advance (grayStage rnd s))
    | .laplace :: _ => .next (advance (laplaceStage bz s))
    | .sharpen :: _ => .next (advance (sharpenStage s))
    | [] => .fault .sequencerCorrupt

end Sys2Proof.Machine
end

