-- ==== Sys2Proof/Machine/Dispatch.lean ====
section
/-!
DEFINITION. One arm per command: `exec` takes one step of the command, its issue while BUSY = 0 and
its current stage while BUSY = 1.
-/

namespace Sys2Proof.Machine

def exec (i : Instr) (s : State) : Host.Outcome State Fault Refusal :=
  match i with
  | .nop bz rnd => Sys2Proof.Machine.execNop bz rnd s
  | .gray bz rnd => Sys2Proof.Machine.execGray bz rnd s
  | .laplace bz rnd => Sys2Proof.Machine.execLaplace bz rnd s
  | .sharpen bz rnd => Sys2Proof.Machine.execSharpen bz rnd s
  | .pipeline bz rnd => Sys2Proof.Machine.execPipeline bz rnd s

end Sys2Proof.Machine
end

