-- ==== Sys2Proof/Machine/Bus.lean ====
section
/-!
DEFINITION. The register window, the START action, the host's operations, the block agent's step and
the order of the two agents.
-/

namespace Sys2Proof.Machine

/-- The register at an offset of the window (R26 of spec/10_state.md, R92); every other offset is
reserved. -/
def regAt (off : BitVec 8) : Option Reg :=
  match off.toNat with
  | 0x00 => some .ctrl
  | 0x04 => some .status
  | 0x08 => some .cmd
  | 0x0C => some .width
  | 0x10 => some .height
  | 0x14 => some .rgbAddr
  | 0x18 => some .grayAddr
  | 0x1C => some .edgeAddr
  | 0x20 => some .outAddr
  | _ => none

/-- The offset a register name stands for (R26, R102). -/
def Reg.offset : Reg → BitVec 8
  | .ctrl => 0x00#8
  | .status => 0x04#8
  | .cmd => 0x08#8
  | .width => 0x0C#8
  | .height => 0x10#8
  | .rgbAddr => 0x14#8
  | .grayAddr => 0x18#8
  | .edgeAddr => 0x1C#8
  | .outAddr => 0x20#8

/-- The access acts: its size is 4 bytes and its offset is a multiple of 4 (R91). -/
def regAccessActs (size : BitVec 3) (off : BitVec 8) : Bool :=
  decide (size = 4#3) && decide (off.toNat % 4 = 0)

/-- What a read of a register returns (R22, R25, R27, R28, R30, R32). -/
def readReg (r : Reg) (s : State) : Word :=
  match r with
  | .ctrl => s.ctrlWord
  | .status => s.statusWord
  | .cmd => s.cmd
  | .width => s.width.setWidth 32
  | .height => s.height.setWidth 32
  | .rgbAddr => s.rgbAddr
  | .grayAddr => s.grayAddr
  | .edgeAddr => s.edgeAddr
  | .outAddr => s.outAddr

/-- RegRead (R91, R92): 0 for an access that does not act, for a reserved offset, and while reset is
asserted (R261). -/
def regRead (size : BitVec 3) (off : BitVec 8) (s : State) : Word :=
  if s.inReset || !regAccessActs size off then 0#32
  else match regAt off with
    | some r => readReg r s
    | none => 0#32

/-- An accepted START up to the decode (R191): the status cleared and the command latched. -/
def acceptStart (s : State) : State := latchCommand (clearStatus s)

/-- The START action (R190, R191): an overrun while BUSY = 1; otherwise the status is cleared, the
command latched and decoded, and an illegal word rejected (R231) or the command issued. -/
def startAction (s : State) : Outcome :=
  if s.busy then .next (overrun s)
  else match decode (acceptStart s).latch.cmd with
    | .illegal _ => .next (reject .illegalCmd (acceptStart s))
    | .command i => exec i (acceptStart s)

/-- A write to a register (R27 to R37): CTRL stores IE and then performs START if bit 0 is 1. -/
def writeReg (r : Reg) (v : Word) (s : State) : Outcome :=
  match r with
  | .ctrl =>
    if v.getLsbD 0 then startAction { s with ie := v.getLsbD 1 }
    else .next { s with ie := v.getLsbD 1 }
  | .status => .next (acknowledge v s)
  | .cmd => .next { s with cmd := v }
  | .width => .next { s with width := v.setWidth 16 }
  | .height => .next { s with height := v.setWidth 16 }
  | .rgbAddr => .next { s with rgbAddr := v }
  | .grayAddr => .next { s with grayAddr := v }
  | .edgeAddr => .next { s with edgeAddr := v }
  | .outAddr => .next { s with outAddr := v }

/-- RegWrite (R91, R92): no effect for an access that does not act, for a reserved offset, and while
reset is asserted (R261). -/
def regWrite (size : BitVec 3) (off : BitVec 8) (v : Word) (s : State) : Outcome :=
  if s.inReset || !regAccessActs size off then .next s
  else match regAt off with
    | some r => writeReg r v s
    | none => .next s

/-- One host operation, on the state from whose list it has been taken. A POLL whose condition does
not hold is put back and tried again (R102). -/
def performOp (op : HostOp) (s : State) : Outcome :=
  match op with
  | .regWrite size off v => regWrite size off v s
  | .regRead size off => .next (addReply (.reg off (regRead size off s)) s)
  | .memWrite addr v => hostMemWrite addr v s
  | .memRead addr => hostMemRead addr s
  | .poll off mask v =>
    if regRead 4#3 off s &&& mask = v then .next s
    else .next { s with host := .poll off mask v :: s.host }
  | .waitIrq => .next s
  | .setReset asserted => .next (if asserted then assertReset s else releaseReset s)

/-- The host agent's step: its next operation. -/
def hostStep (s : State) : Outcome :=
  match s.host with
  | [] => .next s
  | op :: rest => performOp op { s with host := rest }

/-- The block agent's step (R194): the current stage of the latched command. -/
def blockStep (s : State) : Outcome :=
  match decode s.latch.cmd with
  | .illegal _ => .fault .sequencerCorrupt
  | .command i => exec i s

/-- The host can move: it has an operation left, and is not waiting for an irq that is 0 (R102). -/
def State.hostReady (s : State) : Bool :=
  match s.host with
  | [] => false
  | .waitIrq :: _ => s.irq
  | _ :: _ => true

/-- The block agent can move: BUSY = 1 (R194) and reset is not asserted (R261). -/
def State.blockReady (s : State) : Bool := s.busy && !s.inReset

/-- The agent that moves next, if any can. When both can, the schedule decides, and once it is used
up the block agent moves, so that every stage step is eventually taken (R195). -/
def State.mover (s : State) : Option Agent :=
  match s.hostReady, s.blockReady with
  | false, false => none
  | true, false => some .host
  | false, true => some .block
  | true, true => some (s.turns.head?.getD .block)

/-- The state with the turn used up, when both agents could move. -/
def State.takeTurn (s : State) : State :=
  if s.hostReady && s.blockReady then { s with turns := s.turns.tail } else s

/-- One step of the system: the agent whose turn it is moves; with none able to move, nothing happens
(R250, R264). -/
def agentStep (s : State) : Outcome :=
  match s.mover with
  | none => .next s
  | some .host => hostStep s.takeTurn
  | some .block => blockStep s.takeTurn

/-- The RegWrite to CTRL that issues START and keeps IE as it is (R27, R190). -/
def startWrite (ie : Bool) : HostOp :=
  .regWrite 4#3 0x00#8 (0#30 ++ BitVec.ofBool ie ++ 1#1)

end Sys2Proof.Machine
end

