-- ==== Sys2Proof/Machine/HostProgram.lean ====
section
/-!
DEFINITION. The textual host programs of spec/30_encoding.md section 3, each line as the host
operations it stands for (R102, R103).
-/

namespace Sys2Proof.Machine

/-- `WR reg, v` -/
def wr (r : Reg) (v : Word) : List HostOp := [.regWrite 4#3 r.offset v]

/-- `RD reg` -/
def rd (r : Reg) : List HostOp := [.regRead 4#3 r.offset]

/-- `POLL reg, m, v` -/
def pollReg (r : Reg) (mask v : Word) : List HostOp := [.poll r.offset mask v]

/-- `WFI` -/
def wfi : List HostOp := [.waitIrq]

/-- `MWR addr, b0 b1 ...` -/
def mwr : Nat → List Byte → List HostOp
  | _, [] => []
  | addr, b :: rest => .memWrite addr b :: mwr (addr + 1) rest

/-- `MRD addr, n` -/
def mrd (addr n : Nat) : List HostOp := (List.range n).map (fun k => .memRead (addr + k))

/-- `SETUP W, H, rgb, gray, edge, out` -/
def setup (w h rgb gray edge out : Word) : List HostOp :=
  wr .width w ++ wr .height h ++ wr .rgbAddr rgb ++ wr .grayAddr gray ++ wr .edgeAddr edge ++
    wr .outAddr out

/-- `RUN m` with the command word `enc(m)` -/
def runWord (c : Word) : List HostOp := wr .cmd c ++ wr .ctrl 0x00000001#32

/-- `RUNI m` with the command word `enc(m)` -/
def runIrqWord (c : Word) : List HostOp := wr .cmd c ++ wr .ctrl 0x00000003#32

/-- `WAIT` -/
def waitDone : List HostOp := pollReg .status 0x00000002#32 0x00000002#32

/-- `ACK` -/
def ackStatus : List HostOp := wr .status 0x00000006#32

/-- `SUBMIT m` -/
def submit (c : Word) : List HostOp := runWord c ++ waitDone

/-- The transaction a host operation performs, as the notation writes it (R90, R102): its kind (0
RegWrite, 1 RegRead, 2 HostMemWrite, 3 HostMemRead), its offset or address, and its data, absent for
reads. A POLL is a repeated RegRead; WFI and the reset input are no transaction. -/
structure Transaction where
  kind : BitVec 2
  place : Nat
  data : Option Nat
  deriving DecidableEq, Repr

/-- The encoding of a host operation (the table of R102). -/
def HostOp.transaction : HostOp → Option Transaction
  | .regWrite _ off v => some { kind := 0#2, place := off.toNat, data := some v.toNat }
  | .regRead _ off => some { kind := 1#2, place := off.toNat, data := none }
  | .memWrite addr v => some { kind := 2#2, place := addr, data := some v.toNat }
  | .memRead addr => some { kind := 3#2, place := addr, data := none }
  | .poll off _ _ => some { kind := 1#2, place := off.toNat, data := none }
  | .waitIrq => none
  | .setReset _ => none

end Sys2Proof.Machine
end

