-- ==== Sys2Proof/Machine/Step.lean ====
section
/-!
DEFINITION. One step of the machine, and the state from which the next step runs a given command
word.
-/

namespace Sys2Proof.Machine

/-- One step: the agent whose turn it is moves. -/
def step (s : State) : Host.Outcome State Fault Refusal := agentStep s

/-- `s` with the command word in CMD, the core idle and out of reset, and the START write (IE kept)
as the host's next operation, so that the next step runs the word (R82, R190, log 7). -/
def State.withFetchWord (s : State) (nbits w : Nat) : State :=
  { s with
    cmd := tableWord nbits w
    busy := false
    raced := false
    inReset := false
    latch := { s.latch with stages := [] }
    host := startWrite s.ie :: s.host }

end Sys2Proof.Machine
end

