-- ==== Sys2Proof/Safety.lean ====
section
/-!
DEFINITION. What counts as a good state and a safe run: the invariant of every reachable state, the
host programs that stay inside device memory, and the frames the claims are written with.
-/

namespace Sys2Proof.Machine

/-- The invariant of every reachable state: the derived invariants of spec/10_state.md section 5 and
R29, the sequencer's (R39), and that memory and line buffers are canonical and inside their bounds
(R60, R200). -/
structure Inv (s : State) : Prop where
  /-- Device memory is in canonical form. -/
  memCanonical : s.mem.wf
  /-- Only addresses of device memory are written (R60). -/
  memInside : ∀ c ∈ s.mem, c.1 < s.platform.memSize
  /-- The line buffers are in canonical form. -/
  linesCanonical : Memory.wf s.engine.lb0.cells ∧ Memory.wf s.engine.lb1.cells
  /-- Only entries 0..MAX_WIDTH-1 of the line buffers are written (R200). -/
  linesInside :
    (∀ c ∈ s.engine.lb0.cells, c.1 < s.platform.maxWidth) ∧
    (∀ c ∈ s.engine.lb1.cells, c.1 < s.platform.maxWidth)
  /-- BUSY = 1 implies DONE = 0. -/
  busyNotDone : s.busy = true → s.done = false
  /-- BUSY = 1 implies that a command whose checks hold is latched and some of its stages, up to its
  last, are still to run. -/
  busyRuns : s.busy = true →
    ∃ i, running i s = true ∧ s.latch.stages ≠ [] ∧ s.latch.stages <:+ stagesOf i
  /-- BUSY = 0 implies STAGE = 0, with no stage left. -/
  idleNoStage : s.busy = false → s.latch.stages = []
  /-- ERR_CODE is 0 exactly while ERR = 0 (R29). -/
  errCodeWithErr : s.err = false ↔ s.errCode = .noError
  /-- BUSY = 1 and ERR = 1 implies ERR_CODE = 5. -/
  busyErrOverrun : s.busy = true → s.err = true → s.errCode = .overrun
  /-- Only a running command can be raced (R79). -/
  racedBusy : s.raced = true → s.busy = true
  /-- While reset is asserted the core is in its reset state (R260, R261). -/
  resetIdle : s.inReset = true →
    s.busy = false ∧ s.done = false ∧ s.err = false ∧ s.ie = false

/-- The operation reaches no address outside device memory (R60). -/
def HostOp.inMemory (memSize : Nat) : HostOp → Prop
  | .memWrite addr _ => addr < memSize
  | .memRead addr => addr < memSize
  | _ => True

/-- The rest of the host's program stays inside device memory. -/
def HostInMemory (s : State) : Prop := ∀ op ∈ s.host, op.inMemory s.platform.memSize

/-- The registers the host writes hold what they held (R26, but STATUS). -/
def SameRegisters (s t : State) : Prop :=
  t.ie = s.ie ∧ t.cmd = s.cmd ∧ t.width = s.width ∧ t.height = s.height ∧
  t.rgbAddr = s.rgbAddr ∧ t.grayAddr = s.grayAddr ∧ t.edgeAddr = s.edgeAddr ∧
  t.outAddr = s.outAddr

/-- The status flags hold what they held (R28). -/
def SameStatus (s t : State) : Prop :=
  t.busy = s.busy ∧ t.done = s.done ∧ t.err = s.err ∧ t.errCode = s.errCode

/-- The operands of the latched command hold what they held (R38); L.stages may differ. -/
def SameOperands (s t : State) : Prop := { t.latch with stages := s.latch.stages } = s.latch

/-- The platform, the reset input and the host's side hold what they held. -/
def SameSurroundings (s t : State) : Prop :=
  t.platform = s.platform ∧ t.inReset = s.inReset ∧ t.host = s.host ∧ t.turns = s.turns ∧
  t.replies = s.replies

/-- Every byte of device memory outside the ranges reads as it did. -/
def SameBytesOutside (rs : List Range) (s t : State) : Prop :=
  ∀ a, inRanges rs a = false → t.mem.read a = s.mem.read a

/-- Every byte of device memory reads as it did. -/
def SameBytes (s t : State) : Prop := ∀ a, t.mem.read a = s.mem.read a

/-- The command has ended (R197): BUSY = 0, DONE = 1 and STAGE IDLE in one update, ERR and ERR_CODE as
they were (R238). -/
def Ended (s t : State) : Prop :=
  t.busy = false ∧ t.done = true ∧ t.stage = none ∧ t.latch.stages = [] ∧ t.err = s.err ∧
  t.errCode = s.errCode

/-- The command goes on with the stages that are left (R197): BUSY stays 1, STATUS.STAGE reads the
next stage, the other status flags are as they were. -/
def GoesOn (stages : List Stage) (s t : State) : Prop :=
  SameStatus s t ∧ t.latch.stages = stages ∧ t.stage = stages.head? ∧ t.raced = s.raced

/-- What no stage step changes: the host's registers, the latched operands, the surroundings. -/
def StageFrame (s t : State) : Prop :=
  SameRegisters s t ∧ SameOperands s t ∧ SameSurroundings s t

/-- The bytes that LAPLACE on the latched command of `s`, reading the memory of `s`, leaves in the
memory `m`: at every interior pixel the filter value clamped to [0, 255] (R7, R144), and at every
border pixel 0 under BZ = 1 and the byte `s` held under BZ = 0 (R145). -/
def EdgeRasterWritten (bz : Bool) (s : State) (m : Memory) : Prop :=
  (∀ y x, 1 ≤ y → y + 1 < s.latch.h → 1 ≤ x → x + 1 < s.latch.w →
    ((m.read (s.latch.edge.toNat + y * s.latch.w + x)).toNat : Int) =
      min 255 (max 0 (4 * ((zSample s.latch s.mem y x).toNat : Int)
        - (zSample s.latch s.mem (y - 1) x).toNat - (zSample s.latch s.mem (y + 1) x).toNat
        - (zSample s.latch s.mem y (x - 1)).toNat - (zSample s.latch s.mem y (x + 1)).toNat))) ∧
  (∀ y x, y < s.latch.h → x < s.latch.w → onBorder s.latch.w s.latch.h (y, x) = true →
    m.read (s.latch.edge.toNat + y * s.latch.w + x) =
      if bz then 0#8 else s.mem.read (s.latch.edge.toNat + y * s.latch.w + x))

/-- The bytes that GRAY on the latched command of `s` leaves in the memory `m`: the luma of every
pixel's three samples (R122). -/
def LumaRasterWritten (rnd : Bool) (s : State) (m : Memory) : Prop :=
  ∀ i, i < s.latch.pixels → m.read (s.latch.gray.toNat + i) =
    luma rnd (s.mem.read (s.latch.rgb.toNat + 3 * i)) (s.mem.read (s.latch.rgb.toNat + 3 * i + 1))
      (s.mem.read (s.latch.rgb.toNat + 3 * i + 2))

/-- The bytes that SHARPEN on the latched command of `s` leaves in the memory `m`: at every pixel,
border included, the sum of its luma and edge samples clamped to [0, 255] (R7, R170). -/
def SharpRasterWritten (s : State) (m : Memory) : Prop :=
  ∀ i, i < s.latch.pixels → ((m.read (s.latch.out.toNat + i)).toNat : Int) =
    min 255 (max 0 (((s.mem.read (s.latch.gray.toNat + i)).toNat : Int) +
      (s.mem.read (s.latch.edge.toNat + i)).toNat))

/-- The operation clears DONE with no START: a RegWrite to STATUS with bit 1 = 1, or the assertion of
reset (R193). -/
def HostOp.clearsDone : HostOp → Bool
  | .regWrite size off v => decide (size = 4#3) && decide (off = 0x04#8) && v.getLsbD 1
  | .setReset asserted => asserted
  | _ => false

/-- The operation writes device memory or may make it change: a HostMemWrite, or the assertion of
reset (R71, R263). -/
def HostOp.touchesMemory : HostOp → Bool
  | .memWrite _ _ => true
  | .setReset asserted => asserted
  | _ => false

/-- No agent is in the middle of anything: the core is idle, out of reset, and the host has nothing
left to do; the schedule is used up. -/
def Quiet (s : State) : Prop :=
  s.busy = false ∧ s.inReset = false ∧ s.host = [] ∧ s.turns = []

end Sys2Proof.Machine
end

