-- ==== Sys2Proof/Certificates/Slice0/Obligations.lean ====
section
/-!
DEFINITION. The statements for the provers, each `Obligations.<Name>`; OBLIGATIONS.json says which
rules of spec/ each rests on.
-/

open Sys2Proof Sys2Proof.Machine

/-! Encoding -/

/-- Decoding and encoding agree: the word of every command, at every value of both modifier bits,
decodes to the command, and no other word of the 2^32 does, so no bit is dropped (R93 to R97, R99). -/
def Obligations.DecodeIsTheInverseOfEncode : Prop :=
  ∀ (c : Word) (i : Instr), decode c = .command i ↔ c = encode i

/-- The decoder is the mask table of R100, for every one of the 2^32 words. -/
def Obligations.DecodeFollowsMaskTable : Prop :=
  ∀ c : Word,
    (c &&& 0xFFFFFFCF#32 = 0#32 → decode c = .command (.nop (c.getLsbD 4) (c.getLsbD 5))) ∧
    (c &&& 0xFFFFFFCF#32 = 1#32 → decode c = .command (.gray (c.getLsbD 4) (c.getLsbD 5))) ∧
    (c &&& 0xFFFFFFCF#32 = 2#32 → decode c = .command (.laplace (c.getLsbD 4) (c.getLsbD 5))) ∧
    (c &&& 0xFFFFFFCF#32 = 3#32 → decode c = .command (.sharpen (c.getLsbD 4) (c.getLsbD 5))) ∧
    (c &&& 0xFFFFFFCF#32 = 4#32 → decode c = .command (.pipeline (c.getLsbD 4) (c.getLsbD 5))) ∧
    (4#32 < c &&& 0xFFFFFFCF#32 → ∃ why, decode c = .illegal why)

/-- The canonical words of the notation are the encodings of the commands they name, and the words of
the commands the notation accepts are those ten (R101). -/
def Obligations.CanonicalWords : Prop :=
  encode (.nop false false) = 0x00000000#32 ∧
  encode (.gray false false) = 0x00000001#32 ∧ encode (.gray false true) = 0x00000021#32 ∧
  encode (.laplace false false) = 0x00000002#32 ∧ encode (.laplace true false) = 0x00000012#32 ∧
  encode (.sharpen false false) = 0x00000003#32 ∧
  encode (.pipeline false false) = 0x00000004#32 ∧
  encode (.pipeline true false) = 0x00000014#32 ∧
  encode (.pipeline false true) = 0x00000024#32 ∧
  encode (.pipeline true true) = 0x00000034#32 ∧
  ∀ i : Instr, i.wellFormed = true ↔
    encode i ∈ [0x00#32, 0x01#32, 0x21#32, 0x02#32, 0x12#32, 0x03#32, 0x04#32, 0x14#32, 0x24#32,
      0x34#32]

/-- A few command words, written out bit by bit in the tests, decode as the spec's vectors V4 say. -/
def Obligations.SpecWordsDecode : Prop :=
  decode 0x00000030#32 = .command (.nop true true) ∧
  decode 0x00000021#32 = .command (.gray false true) ∧
  decode 0x00000012#32 = .command (.laplace true false) ∧
  decode 0x00000033#32 = .command (.sharpen true true) ∧
  decode 0x00000034#32 = .command (.pipeline true true) ∧
  decode 0x00000005#32 = .illegal .reservedOp ∧
  decode 0x00000009#32 = .illegal .reservedBits ∧
  decode 0x80000000#32 = .illegal .reservedBits

/-! The step -/

/-- When the host's next operation is a RegWrite of CTRL with bit 0 = 1 and the core is idle, the step
stores IE, clears the status, latches the command and runs the command its word decodes to; a word
that decodes to none is rejected (R190, R191, R231). -/
def Obligations.StartStepRunsDecodedCommand : Prop :=
  ∀ (s : State) (v : Word) (rest : List HostOp), s.busy = false → s.inReset = false →
    s.host = .regWrite 4#3 0x00#8 v :: rest → v.getLsbD 0 = true →
    (∀ i, decode s.cmd = .command i →
      step s = exec i (acceptStart { s with host := rest, ie := v.getLsbD 1 })) ∧
    (∀ why, decode s.cmd = .illegal why →
      step s = .next (reject .illegalCmd (acceptStart { s with host := rest, ie := v.getLsbD 1 })))

/-- When it is the block agent's turn, the step runs the command its latched word decodes to (R194). -/
def Obligations.BlockStepRunsLatchedCommand : Prop :=
  ∀ (s : State) (i : Instr), s.mover = some .block → decode s.latch.cmd = .command i →
    step s = exec i s.takeTurn

/-- A word placed by `withFetchWord` is the command the next step runs: the step adds the START's
clearing of the status and latching of the operands around `exec`. `withFetchWord` stands for the
host's writes of CMD and CTRL (log 7). -/
def Obligations.FetchedWordRunsNext : Prop :=
  ∀ (s : State) (w : Nat) (i : Instr), decodeTableWord 32 w = some i →
    step (s.withFetchWord 32 w) =
      exec i (acceptStart { s with cmd := BitVec.ofNat 32 w, busy := false, raced := false,
                                   inReset := false })

/-! Reset -/

/-- After reset every field of every register holds its reset value, L.stages is empty and the
interrupt is low (R43); only the values the spec gives are stated. -/
def Obligations.ResetStateHoldsSpecValues : Prop :=
  readReg .ctrl State.reset = 0#32 ∧ readReg .status State.reset = 0#32 ∧
  readReg .cmd State.reset = 0#32 ∧ readReg .width State.reset = 0#32 ∧
  readReg .height State.reset = 0#32 ∧ readReg .rgbAddr State.reset = 0#32 ∧
  readReg .grayAddr State.reset = 0#32 ∧ readReg .edgeAddr State.reset = 0#32 ∧
  readReg .outAddr State.reset = 0#32 ∧ State.reset.latch.stages = [] ∧
  State.reset.stage = none ∧ State.reset.irq = false

/-- Asserting reset puts every register at its reset value; a running command is abandoned and every
byte of its write ranges is a draw; every other byte is unchanged (R260, R262, R263). The numbered
draws are the model's form of R263's arbitrary bytes (log 3), the whole EDGE range its reading of the
write ranges (log 8). -/
def Obligations.ResetAbandonsCommand : Prop :=
  ∀ (s : State) (rest : List HostOp), s.host = .setReset true :: rest → s.mover = some .host →
    ∃ t, step s = .next t ∧ t.inReset = true ∧ t.busy = false ∧ t.done = false ∧ t.err = false ∧
      t.stage = none ∧ t.irq = false ∧ SameRegisters State.reset t ∧
      t.errCode = .noError ∧ t.latch.stages = [] ∧ t.platform = s.platform ∧ t.host = rest ∧
      (s.busy = false → SameBytes s t) ∧
      (s.busy = true → SameBytesOutside s.latch.written s t ∧
        ∀ a, inRanges s.latch.written a = true →
          ∃ k, s.draws ≤ k ∧ k < t.draws ∧ t.mem.read a = Config.freeByte k)

/-- While reset is asserted the core takes no block step, a RegWrite has no effect and a RegRead
returns 0 (R261). -/
def Obligations.HeldInReset : Prop :=
  ∀ s : State, s.inReset = true →
    s.mover ≠ some .block ∧
    (∀ size off v, regWrite size off v s = .next s) ∧
    (∀ size off, regRead size off s = 0#32)

/-! START -/

/-- A START while BUSY = 1 sets ERR and ERR_CODE = 5 and changes nothing else but the IE its RegWrite
stores (R190, R239). -/
def Obligations.StartWhileBusyIsOverrun : Prop :=
  ∀ (s : State) (v : Word), s.busy = true → s.inReset = false → v.getLsbD 0 = true →
    regWrite 4#3 0x00#8 v s =
      .next { s with ie := v.getLsbD 1, err := true, errCode := .overrun }

/-- The checks of an accepted START, in their order: the first that fails names the error (R236). -/
def Obligations.ChecksInOrder : Prop :=
  ∀ (l : Latch) (p : Platform),
    (∀ why, decode l.cmd = .illegal why → checkLatch l p = .illegalCmd) ∧
    (∀ bz rnd, decode l.cmd = .command (.nop bz rnd) → checkLatch l p = .noError) ∧
    (∀ i, decode l.cmd = .command i → hasOperands i = true →
      ((l.w = 0 ∨ l.h = 0 ∨ p.maxWidth < l.w) → checkLatch l p = .badDim) ∧
      (¬ (l.w = 0 ∨ l.h = 0 ∨ p.maxWidth < l.w) →
        ((∃ r ∈ usedRanges i l, p.memSize < r.base + r.len) → checkLatch l p = .range) ∧
        ((∀ r ∈ usedRanges i l, r.base + r.len ≤ p.memSize) →
          ((∃ q ∈ overlapPairs i l, q.1.base < q.2.base + q.2.len ∧
              q.2.base < q.1.base + q.1.len) → checkLatch l p = .overlap) ∧
          ((∀ q ∈ overlapPairs i l, q.2.base + q.2.len ≤ q.1.base ∨
              q.1.base + q.1.len ≤ q.2.base) → checkLatch l p = .noError))))

/-- Which operands each command accepts, as inequalities between exact integers: the dimensions of
R233, the ranges of R234 and the pairs of R235. -/
def Obligations.AcceptedOperands : Prop :=
  ∀ (l : Latch) (p : Platform) (bz rnd : Bool),
    let n := l.w * l.h
    let dims := 0 < l.w ∧ 0 < l.h ∧ l.w ≤ p.maxWidth
    let rgb := l.rgb.toNat
    let gray := l.gray.toNat
    let edge := l.edge.toNat
    let out := l.out.toNat
    (checkOperands (.nop bz rnd) l p = .noError) ∧
    (checkOperands (.gray bz rnd) l p = .noError ↔
      dims ∧ rgb + 3 * n ≤ p.memSize ∧ gray + n ≤ p.memSize ∧
      (rgb + 3 * n ≤ gray ∨ gray + n ≤ rgb)) ∧
    (checkOperands (.laplace bz rnd) l p = .noError ↔
      dims ∧ gray + n ≤ p.memSize ∧ edge + n ≤ p.memSize ∧ (gray + n ≤ edge ∨ edge + n ≤ gray)) ∧
    (checkOperands (.sharpen bz rnd) l p = .noError ↔
      dims ∧ gray + n ≤ p.memSize ∧ edge + n ≤ p.memSize ∧ out + n ≤ p.memSize ∧
      (gray + n ≤ out ∨ out + n ≤ gray) ∧ (edge + n ≤ out ∨ out + n ≤ edge)) ∧
    (checkOperands (.pipeline bz rnd) l p = .noError ↔
      dims ∧ rgb + 3 * n ≤ p.memSize ∧ gray + n ≤ p.memSize ∧ edge + n ≤ p.memSize ∧
      out + n ≤ p.memSize ∧ (rgb + 3 * n ≤ gray ∨ gray + n ≤ rgb) ∧
      (gray + n ≤ edge ∨ edge + n ≤ gray) ∧ (gray + n ≤ out ∨ out + n ≤ gray) ∧
      (edge + n ≤ out ∨ out + n ≤ edge))

/-- A START whose check fails sets ERR, ERR_CODE and DONE, leaves BUSY = 0 and STAGE IDLE, and
accesses no byte of device memory (R191, R240). -/
def Obligations.RejectedStart : Prop :=
  ∀ (s : State) (e : ErrCode), s.busy = false →
    checkLatch (acceptStart s).latch s.platform = e → e ≠ .noError →
    ∃ t, startAction s = .next t ∧ t.err = true ∧ t.errCode = e ∧ t.done = true ∧
      t.busy = false ∧ t.stage = none ∧ t.mem = s.mem ∧ t.engine = s.engine ∧
      t.draws = s.draws ∧ SameRegisters s t ∧ SameSurroundings s t

/-- An accepted START whose checks pass clears DONE, ERR and ERR_CODE, latches the operands from the
registers, sets L.stages to the command's stages and BUSY to 1, and touches no memory (R191, R192,
R38). -/
def Obligations.AcceptedStartIssues : Prop :=
  ∀ (s : State) (i : Instr), s.busy = false → decode s.cmd = .command i → hasOperands i = true →
    checkOperands i (acceptStart s).latch s.platform = .noError →
    ∃ t, startAction s = .next t ∧ t.busy = true ∧ t.done = false ∧ t.err = false ∧
      t.errCode = .noError ∧ t.stage = (stagesOf i).head? ∧
      t.latch = { cmd := s.cmd, width := s.width, height := s.height, rgb := s.rgbAddr,
                  gray := s.grayAddr, edge := s.edgeAddr, out := s.outAddr, stages := stagesOf i } ∧
      t.raced = false ∧ t.mem = s.mem ∧ t.engine = s.engine ∧ t.draws = s.draws ∧
      SameRegisters s t ∧ SameSurroundings s t

/-- Each command's step while the core is idle: with its checks passed, `exec` issues it (R192; that
`exec` is one step of a command is log 9). -/
def Obligations.IdleExecIssues : Prop :=
  ∀ (s : State) (i : Instr), s.busy = false → hasOperands i = true →
    checkOperands i s.latch s.platform = .noError →
    ∃ t, exec i s = .next t ∧ t.busy = true ∧ t.stage = (stagesOf i).head? ∧
      t.done = s.done ∧ t.err = s.err ∧ t.errCode = s.errCode ∧ t.mem = s.mem ∧
      t.engine = s.engine ∧ t.draws = s.draws ∧ StageFrame s t

/-- NOP completes at its START with DONE = 1 and nothing else changed, whatever the operands; by a
START it leaves ERR = 0 and ERR_CODE = 0 (R205). -/
def Obligations.NopCompletesAtStart : Prop :=
  ∀ (s : State) (bz rnd : Bool), s.busy = false →
    exec (.nop bz rnd) s = .next { s with done := true } ∧
    (decode s.cmd = .command (.nop bz rnd) →
      ∃ t, startAction s = .next t ∧ t.done = true ∧ t.err = false ∧ t.errCode = .noError ∧
        t.busy = false ∧ t.stage = none ∧ t.mem = s.mem ∧ SameRegisters s t ∧
        SameSurroundings s t)

/-- After a START the command is BUSY or DONE, and from then on no step leaves both 0 unless the host
clears DONE or asserts reset (R193). -/
def Obligations.StartIsNeverMissed : Prop :=
  (∀ s t : State, startAction s = .next t → t.busy = true ∨ t.done = true) ∧
  (∀ s t : State, step s = .next t → (s.busy = true ∨ s.done = true) →
    (s.mover = some .host → ∀ op rest, s.host = op :: rest → op.clearsDone = false) →
    t.busy = true ∨ t.done = true)

/-! The commands -/

/-- GRAY's stage step writes the luma raster and nothing else, and the command ends (R122, R125,
R197). -/
def Obligations.GrayCompletes : Prop :=
  ∀ (s : State) (bz rnd : Bool), running (.gray bz rnd) s = true → s.latch.stages = [.gray] →
    s.raced = false →
    ∃ t, exec (.gray bz rnd) s = .next t ∧ LumaRasterWritten rnd s t.mem ∧
      SameBytesOutside [s.latch.grayRange] s t ∧ Ended s t ∧ StageFrame s t ∧
      t.engine = s.engine ∧ t.draws = s.draws

/-- LAPLACE's stage step writes every interior filter value f as min(255, max(0, f)), the border as BZ
says, and nothing else, and the command ends (R7, R144, R145, R146, R197). -/
def Obligations.LaplaceCompletes : Prop :=
  ∀ (s : State) (bz rnd : Bool), running (.laplace bz rnd) s = true →
    s.latch.stages = [.laplace] → s.raced = false →
    ∃ t, exec (.laplace bz rnd) s = .next t ∧ EdgeRasterWritten bz s t.mem ∧
      SameBytesOutside [s.latch.edgeRange] s t ∧ Ended s t ∧ StageFrame s t

/-- SHARPEN's stage step writes the sums clamped to [0, 255], border included, and nothing else, and
the command ends (R7, R170, R172, R197). -/
def Obligations.SharpenCompletes : Prop :=
  ∀ (s : State) (bz rnd : Bool), running (.sharpen bz rnd) s = true →
    s.latch.stages = [.sharpen] → s.raced = false →
    ∃ t, exec (.sharpen bz rnd) s = .next t ∧ SharpRasterWritten s t.mem ∧
      SameBytesOutside [s.latch.outRange] s t ∧ Ended s t ∧ StageFrame s t ∧
      t.engine = s.engine ∧ t.draws = s.draws

/-- PIPELINE's three stage steps, in order, each over the full raster: GRAY, then LAPLACE, then
SHARPEN, with STAGE reading 1, 2, 3 and DONE at the end (R197, R198, R206). -/
def Obligations.PipelineStagesInOrder : Prop :=
  ∀ (s : State) (bz rnd : Bool), running (.pipeline bz rnd) s = true →
    (s.latch.stages = [.gray, .laplace, .sharpen] →
      ∃ t, exec (.pipeline bz rnd) s = .next t ∧ LumaRasterWritten rnd s t.mem ∧
        SameBytesOutside [s.latch.grayRange] s t ∧ GoesOn [.laplace, .sharpen] s t ∧
        StageFrame s t) ∧
    (s.latch.stages = [.laplace, .sharpen] →
      ∃ t, exec (.pipeline bz rnd) s = .next t ∧ EdgeRasterWritten bz s t.mem ∧
        SameBytesOutside [s.latch.edgeRange] s t ∧ GoesOn [.sharpen] s t ∧ StageFrame s t) ∧
    (s.latch.stages = [.sharpen] → s.raced = false →
      ∃ t, exec (.pipeline bz rnd) s = .next t ∧ SharpRasterWritten s t.mem ∧
        SameBytesOutside [s.latch.outRange] s t ∧ Ended s t ∧ StageFrame s t)

/-- When the host has touched a running command's buffers, the command still ends, and then every byte
of its write ranges is a draw and every other byte is unchanged by its last step (R79, as log 8 reads
it; the numbered draws are log 3's). -/
def Obligations.RacedCommandEndsInDraws : Prop :=
  ∀ (s : State) (i : Instr) (last : Stage), running i s = true → s.latch.stages = [last] →
    [last] <:+ stagesOf i → s.raced = true →
    ∃ t, exec i s = .next t ∧ Ended s t ∧ t.raced = false ∧ StageFrame s t ∧
      SameBytesOutside s.latch.written s t ∧
      ∀ a, inRanges s.latch.written a = true →
        ∃ k, s.draws ≤ k ∧ k < t.draws ∧ t.mem.read a = Config.freeByte k

/-- From START to DONE: an accepted PIPELINE takes the START and three stage steps, and then the GRAY,
EDGE and OUT ranges hold the luma, edge and sharpened rasters of the RGB raster that memory held at
the START, and every other byte is unchanged (R194, R197, R198, R206, R208). -/
def Obligations.PipelineFromStartToDone : Prop :=
  ∀ (s : State) (v : Word) (bz rnd : Bool), s.busy = false → s.inReset = false →
    s.host = [.regWrite 4#3 0x00#8 v] → v.getLsbD 0 = true →
    decode s.cmd = .command (.pipeline bz rnd) →
    checkOperands (.pipeline bz rnd) (acceptStart s).latch s.platform = .noError →
    let l := (acceptStart s).latch
    let g := fun i => lumaAt rnd l s.mem i
    let z := fun y x => if onBorder l.w l.h (y, x) then (0 : Int) else (g (y * l.w + x)).toNat
    let e := fun y x =>
      if onBorder l.w l.h (y, x) then
        (if bz then (0 : Int) else (s.mem.read (l.edge.toNat + y * l.w + x)).toNat)
      else min 255 (max 0 (4 * z y x - z (y - 1) x - z (y + 1) x - z y (x - 1) - z y (x + 1)))
    ∃ t, Host.Core.run Sys2Proof.core 4 s = .next t ∧
      t.busy = false ∧ t.done = true ∧ t.err = false ∧ t.errCode = .noError ∧
      (∀ i, i < l.pixels → t.mem.read (l.gray.toNat + i) = g i) ∧
      (∀ y x, y < l.h → x < l.w →
        ((t.mem.read (l.edge.toNat + y * l.w + x)).toNat : Int) = e y x) ∧
      (∀ y x, y < l.h → x < l.w → ((t.mem.read (l.out.toNat + y * l.w + x)).toNat : Int) =
        min 255 (max 0 ((g (y * l.w + x)).toNat + e y x))) ∧
      SameBytesOutside [l.grayRange, l.edgeRange, l.outRange] s t

/-- PIPELINE has the same effect on device memory as GRAY, LAPLACE and SHARPEN submitted one after
another, each waited for, with the same registers and modifier bits (R207). The runs are those of the
used-up schedule, in which the block agent moves whenever it can (log 6). -/
def Obligations.PipelineEqualsThreeCommands : Prop :=
  ∀ (s : State) (bz rnd : Bool), Quiet s →
    checkOperands (.pipeline bz rnd) (acceptStart s).latch s.platform = .noError →
    ∃ t u,
      Host.Core.run Sys2Proof.core 6
        { s with host := submit (encode (.pipeline bz rnd)) } = .next t ∧
      Host.Core.run Sys2Proof.core 12
        { s with host := submit (encode (.gray bz rnd)) ++ submit (encode (.laplace bz rnd)) ++
                         submit (encode (.sharpen bz rnd)) } = .next u ∧
      t.host = [] ∧ u.host = [] ∧ t.done = true ∧ u.done = true ∧ t.err = false ∧
      u.err = false ∧ t.mem = u.mem

/-- PIPELINE's START is rejected exactly when one of the three commands' would be (R207). -/
def Obligations.PipelineRejectedIffOneOfThree : Prop :=
  ∀ (l : Latch) (p : Platform) (bz rnd : Bool),
    checkOperands (.pipeline bz rnd) l p ≠ .noError ↔
      checkOperands (.gray bz rnd) l p ≠ .noError ∨
      checkOperands (.laplace bz rnd) l p ≠ .noError ∨
      checkOperands (.sharpen bz rnd) l p ≠ .noError

/-- The line-buffered engine writes exactly the bytes LAPLACE writes, with the same values and in
raster order, whatever its line buffers and window held before the scan (R202, R203, R204). -/
def Obligations.LineBufferedEngineWritesLaplace : Prop :=
  ∀ (bz : Bool) (l : Latch) (m : Memory) (e : Engine), engineCells bz l m e = laplaceCells bz l m

/-! The whole machine -/

/-- The reset state meets the invariant. -/
def Obligations.ResetMeetsInvariant : Prop := Inv State.reset

/-- Every step keeps the invariant: STATUS and the sequencer stay consistent (R29, R39 and section 5
of spec/10_state.md), memory and the line buffers stay canonical and inside their bounds. -/
def Obligations.StepKeepsInvariant : Prop := ∀ s t : State, Inv s → step s = .next t → Inv t

/-- In every state that meets the invariant, and whose host stays inside device memory, a step never
stops: no stage fails, and no reachable latched command is corrupt (R195, R238). -/
def Obligations.GoodStatesNeverStop : Prop :=
  ∀ s : State, Inv s → HostInMemory s → ∃ t, step s = .next t ∧ HostInMemory t

/-- With the schedule used up, a running command ends after one step per stage that is left, with
ERR and ERR_CODE as they were: the model's choice of log 6 realises the fairness of R195. -/
def Obligations.RunningCommandEnds : Prop :=
  ∀ s : State, Inv s → s.busy = true → s.turns = [] →
    ∃ t, Host.Core.run Sys2Proof.core s.latch.stages.length s = .next t ∧
      t.busy = false ∧ t.done = true ∧ t.stage = none ∧ t.err = s.err ∧ t.errCode = s.errCode

/-- A block step changes no byte outside the running command's write ranges, no register the host
writes, neither ERR nor ERR_CODE, and nothing on the host's side (R42, R238). -/
def Obligations.BlockStepStaysInWriteRanges : Prop :=
  ∀ s t : State, s.mover = some .block → step s = .next t →
    SameBytesOutside s.latch.written s t ∧ SameRegisters s t ∧ SameOperands s t ∧
    t.err = s.err ∧ t.errCode = s.errCode ∧ t.platform = s.platform ∧ t.host = s.host ∧
    t.replies = s.replies ∧ t.inReset = s.inReset

/-- Of the host's operations only a HostMemWrite, and reset while a command runs, can change device
memory: register accesses, a START among them, and reads leave every byte (R71, R191). -/
def Obligations.HostStepLeavesMemory : Prop :=
  ∀ (s t : State) (op : HostOp) (rest : List HostOp), s.mover = some .host →
    s.host = op :: rest → op.touchesMemory = false → step s = .next t → t.mem = s.mem

/-! Registers -/

/-- A RegWrite to CMD, WIDTH, HEIGHT or an address register is accepted at any time out of reset,
BUSY or not, and changes only the register; the register then reads back what was written, WIDTH and
HEIGHT their low 16 bits (R22, R30 to R37). -/
def Obligations.ConfigWriteChangesOnlyRegister : Prop :=
  ∀ (s : State) (v : Word), s.inReset = false →
    regWrite 4#3 0x08#8 v s = .next { s with cmd := v } ∧
    regWrite 4#3 0x0C#8 v s = .next { s with width := v.setWidth 16 } ∧
    regWrite 4#3 0x10#8 v s = .next { s with height := v.setWidth 16 } ∧
    regWrite 4#3 0x14#8 v s = .next { s with rgbAddr := v } ∧
    regWrite 4#3 0x18#8 v s = .next { s with grayAddr := v } ∧
    regWrite 4#3 0x1C#8 v s = .next { s with edgeAddr := v } ∧
    regWrite 4#3 0x20#8 v s = .next { s with outAddr := v } ∧
    regRead 4#3 0x08#8 { s with cmd := v } = v ∧
    regRead 4#3 0x0C#8 { s with width := v.setWidth 16 } = v &&& 0x0000FFFF#32 ∧
    regRead 4#3 0x10#8 { s with height := v.setWidth 16 } = v &&& 0x0000FFFF#32 ∧
    regRead 4#3 0x14#8 { s with rgbAddr := v } = v ∧
    regRead 4#3 0x18#8 { s with grayAddr := v } = v ∧
    regRead 4#3 0x1C#8 { s with edgeAddr := v } = v ∧
    regRead 4#3 0x20#8 { s with outAddr := v } = v

/-- A RegWrite to CTRL with bit 0 = 0 stores IE and nothing else; CTRL reads back IE in bit 1 and 0
elsewhere (R25, R27). -/
def Obligations.CtrlHoldsOnlyIe : Prop :=
  ∀ (s : State) (v : Word), s.inReset = false →
    (v.getLsbD 0 = false → regWrite 4#3 0x00#8 v s = .next { s with ie := v.getLsbD 1 }) ∧
    regRead 4#3 0x00#8 { s with ie := v.getLsbD 1 } = v &&& 0x00000002#32

/-- A RegWrite to STATUS clears DONE where bit 1 is 1 and ERR with ERR_CODE where bit 2 is 1, and
changes nothing else (R23, R24, R29, R241). -/
def Obligations.StatusWriteAcknowledges : Prop :=
  ∀ (s : State) (v : Word), s.inReset = false →
    regWrite 4#3 0x04#8 v s =
      .next { s with done := if v.getLsbD 1 then false else s.done
                     err := if v.getLsbD 2 then false else s.err
                     errCode := if v.getLsbD 2 then .noError else s.errCode }

/-- The fields of STATUS, each in its place, and the reserved bits 0 (R28); ERR_CODE reads the code 0
to 5 of its error (R230), STAGE 0 while BUSY = 0 and 1, 2 or 3 for the head GRAY, LAPLACE or SHARPEN
of L.stages while BUSY = 1 (R39). -/
def Obligations.StatusFields : Prop :=
  ∀ s : State, s.inReset = false →
    let v := regRead 4#3 0x04#8 s
    v.getLsbD 0 = s.busy ∧ v.getLsbD 1 = s.done ∧ v.getLsbD 2 = s.err ∧ v.getLsbD 3 = false ∧
    v.extractLsb' 4 4 = s.errCode.code ∧ v.extractLsb' 8 2 = stageCode s.stage ∧
    v.getLsbD 10 = s.irq ∧ v.extractLsb' 11 21 = 0#21 ∧
    (s.errCode = .noError → v.extractLsb' 4 4 = 0#4) ∧
    (s.errCode = .illegalCmd → v.extractLsb' 4 4 = 1#4) ∧
    (s.errCode = .badDim → v.extractLsb' 4 4 = 2#4) ∧
    (s.errCode = .range → v.extractLsb' 4 4 = 3#4) ∧
    (s.errCode = .overlap → v.extractLsb' 4 4 = 4#4) ∧
    (s.errCode = .overrun → v.extractLsb' 4 4 = 5#4) ∧
    (s.busy = false → v.extractLsb' 8 2 = 0#2) ∧
    (s.busy = true → s.latch.stages.head? = some .gray → v.extractLsb' 8 2 = 1#2) ∧
    (s.busy = true → s.latch.stages.head? = some .laplace → v.extractLsb' 8 2 = 2#2) ∧
    (s.busy = true → s.latch.stages.head? = some .sharpen → v.extractLsb' 8 2 = 3#2)

/-- The irq output is IE AND (DONE OR ERR), and STATUS.IRQ reads it; it falls when DONE and ERR are
acknowledged or IE is cleared, and clearing IE clears neither flag (R41, R243). -/
def Obligations.IrqIsLevel : Prop :=
  ∀ s : State,
    (s.irq = true ↔ s.ie = true ∧ (s.done = true ∨ s.err = true)) ∧
    (s.inReset = false →
      (regRead 4#3 0x04#8 s).getLsbD 10 = s.irq ∧
      (∃ t, regWrite 4#3 0x04#8 0x00000006#32 s = .next t ∧ t.irq = false) ∧
      (∃ t, regWrite 4#3 0x00#8 0x00000000#32 s = .next t ∧ t.irq = false ∧
        t.done = s.done ∧ t.err = s.err))

/-- A register access of another size than 4 bytes, or at an offset that is no multiple of 4, writes
nothing and reads 0 (R91). -/
def Obligations.NarrowOrMisalignedAccess : Prop :=
  ∀ (s : State) (size : BitVec 3) (off : BitVec 8) (v : Word),
    (size ≠ 4#3 ∨ off.toNat % 4 ≠ 0) →
    regWrite size off v s = .next s ∧ regRead size off s = 0#32

/-- An access of 4 bytes at one of the nine offsets of R26's table acts on the register there, and the
reserved offsets 0x24 to 0xFC read 0 and ignore writes (R92). -/
def Obligations.RegisterMap : Prop :=
  ∀ (s : State) (v : Word),
    (s.inReset = false →
      [(0x00#8, Reg.ctrl), (0x04#8, .status), (0x08#8, .cmd), (0x0C#8, .width), (0x10#8, .height),
        (0x14#8, .rgbAddr), (0x18#8, .grayAddr), (0x1C#8, .edgeAddr), (0x20#8, .outAddr)].Forall
        (fun p => regRead 4#3 p.1 s = readReg p.2 s ∧ regWrite 4#3 p.1 v s = writeReg p.2 v s)) ∧
    (∀ off : BitVec 8, 0x24 ≤ off.toNat →
      regWrite 4#3 off v s = .next s ∧ regRead 4#3 off s = 0#32)

/-- A RegRead returns its word to the host and changes nothing else (R71, R90). -/
def Obligations.RegReadHasNoSideEffect : Prop :=
  ∀ (s : State) (size : BitVec 3) (off : BitVec 8),
    performOp (.regRead size off) s =
      .next { s with replies := s.replies ++ [.reg off (regRead size off s)] }

/-! Device memory and the host -/

/-- Out of reset, a byte the host writes reads back as the value written, every other byte as before;
a read outside a running command's write ranges returns the byte, changes nothing but the replies, and so
returns the same value again, written or not (R71, R72, R90). -/
def Obligations.HostMemoryReadsBack : Prop :=
  ∀ (s : State) (a : Nat) (v : Byte), s.inReset = false → a < s.platform.memSize →
    (∃ t, hostMemWrite a v s = .next t ∧ t.mem.read a = v ∧
      (∀ b, b ≠ a → t.mem.read b = s.mem.read b) ∧ SameRegisters s t ∧ SameStatus s t ∧
      t.latch = s.latch ∧ SameSurroundings s t) ∧
    ((s.busy = false ∨ inRanges s.latch.written a = false) →
      hostMemRead a s = .next { s with replies := s.replies ++ [.mem a (s.mem.read a)] })

/-- While a command runs, a host read of a byte it writes returns a draw, and marks the command as
raced, as does a host write to any byte it uses; a write elsewhere does not (R79, as log 8 reads it;
the numbered draws are log 3's). -/
def Obligations.HostAccessToBuffersRaces : Prop :=
  ∀ (s : State) (a : Nat) (v : Byte), s.busy = true → a < s.platform.memSize →
    (inRanges s.latch.written a = true →
      ∃ t, hostMemRead a s = .next t ∧ t.raced = true ∧ t.draws = s.draws + 1 ∧
        t.replies = s.replies ++ [.mem a (Config.freeByte s.draws)] ∧ t.mem = s.mem) ∧
    (inRanges s.latch.used a = true → ∃ t, hostMemWrite a v s = .next t ∧ t.raced = true) ∧
    (inRanges s.latch.used a = false →
      ∃ t, hostMemWrite a v s = .next t ∧ t.raced = s.raced)

/-- A host access at or past MEM_SIZE, an address device memory does not have, faults (R60; the fault
is the model's, log 10). -/
def Obligations.AccessPastMemoryFaults : Prop :=
  ∀ (s : State) (a : Nat) (v : Byte), s.platform.memSize ≤ a →
    hostMemRead a s = .fault .noSuchAddress ∧ hostMemWrite a v s = .fault .noSuchAddress

/-! Arithmetic -/

/-- Luma is the exact weighted sum in thousandths, at most 255000, truncated or rounded half up; the
clamp never changes it (R120, R123). -/
def Obligations.LumaIsExactWeightedSum : Prop :=
  ∀ r g b : Byte,
    299 * r.toNat + 587 * g.toNat + 114 * b.toNat ≤ 255000 ∧
    (luma false r g b).toNat = (299 * r.toNat + 587 * g.toNat + 114 * b.toNat) / 1000 ∧
    (luma true r g b).toNat = (299 * r.toNat + 587 * g.toNat + 114 * b.toNat + 500) / 1000

/-- White converts to 255 and black to 0 under both rounding modes (R126). -/
def Obligations.WhiteAndBlack : Prop :=
  ∀ rnd, luma rnd 255#8 255#8 255#8 = 255#8 ∧ luma rnd 0#8 0#8 0#8 = 0#8

/-- The filter value of an interior pixel is four times its Z sample less its four edge-adjacent ones
(R142, R143). -/
def Obligations.FilterIsFivePointStencil : Prop :=
  ∀ (l : Latch) (m : Memory) (y x : Nat), 1 ≤ y → 1 ≤ x →
    filterValue l m y x =
      4 * ((zSample l m y x).toNat : Int) - (zSample l m (y - 1) x).toNat
        - (zSample l m (y + 1) x).toNat - (zSample l m y (x - 1)).toNat
        - (zSample l m y (x + 1)).toNat

/-- The filter value of an interior pixel lies between -1020 and 1020, in a signed 12-bit
intermediate (R148). -/
def Obligations.FilterValueBounds : Prop :=
  ∀ (l : Latch) (m : Memory) (y x : Nat), 1 ≤ y → y + 1 < l.h → 1 ≤ x → x + 1 < l.w →
    -1020 ≤ filterValue l m y x ∧ filterValue l m y x ≤ 1020

/-- Where every interior pixel holds the value c, an interior pixel with n interior 4-neighbours has
the filter value (4 - n)·c (R149). -/
def Obligations.FlatFieldFilter : Prop :=
  ∀ (l : Latch) (m : Memory) (c : Byte) (y x : Nat),
    (∀ y' x', onBorder l.w l.h (y', x') = false → y' < l.h → x' < l.w →
      m.read (l.gray.toNat + y' * l.w + x') = c) →
    1 ≤ y → y + 1 < l.h → 1 ≤ x → x + 1 < l.w →
    filterValue l m y x =
      (4 - (([(y - 1, x), (y + 1, x), (y, x - 1), (y, x + 1)].countP
        (fun p => !onBorder l.w l.h p) : Nat) : Int)) * c.toNat

/-- The result at a pixel depends on the GRAY raster only through the five samples of the pixel and
its 4-neighbours; the diagonal ones never matter (R150). -/
def Obligations.FilterReadsFiveSamples : Prop :=
  ∀ (l : Latch) (m m' : Memory) (y x : Nat), 1 ≤ y → y + 1 < l.h → 1 ≤ x → x + 1 < l.w →
    (∀ p ∈ [(y, x), (y - 1, x), (y + 1, x), (y, x - 1), (y, x + 1)],
      m.read (l.gray.toNat + p.1 * l.w + p.2) = m'.read (l.gray.toNat + p.1 * l.w + p.2)) →
    edgeAt l m y x = edgeAt l m' y x

/-- The edge detector commutes with reversing the row order and with reversing the column order
(R64). -/
def Obligations.EdgeCommutesWithFlips : Prop :=
  ∀ (l : Latch) (m m' : Memory),
    ((∀ y x, y < l.h → x < l.w →
        m'.read (l.gray.toNat + y * l.w + x) = m.read (l.gray.toNat + (l.h - 1 - y) * l.w + x)) →
      ∀ y x, 1 ≤ y → y + 1 < l.h → 1 ≤ x → x + 1 < l.w →
        edgeAt l m' y x = edgeAt l m (l.h - 1 - y) x) ∧
    ((∀ y x, y < l.h → x < l.w →
        m'.read (l.gray.toNat + y * l.w + x) = m.read (l.gray.toNat + y * l.w + (l.w - 1 - x))) →
      ∀ y x, 1 ≤ y → y + 1 < l.h → 1 ≤ x → x + 1 < l.w →
        edgeAt l m' y x = edgeAt l m y (l.w - 1 - x))

/-- With W < 3 or H < 3 LAPLACE is no error: it writes no byte under BZ = 0 and 0 to every byte of the
EDGE range under BZ = 1 (R147). -/
def Obligations.SmallRasterHasNoInterior : Prop :=
  ∀ (s : State) (bz rnd : Bool), running (.laplace bz rnd) s = true →
    s.latch.stages = [.laplace] → s.raced = false → (s.latch.w < 3 ∨ s.latch.h < 3) →
    ∃ t, exec (.laplace bz rnd) s = .next t ∧ Ended s t ∧
      (bz = false → t.mem = s.mem) ∧
      (bz = true → ∀ i, i < s.latch.pixels → t.mem.read (s.latch.edge.toNat + i) = 0#8)

/-- The sharpened sample is min(O + E, 255) (R170, R171). -/
def Obligations.SharpenedSampleIsClampedSum : Prop :=
  ∀ (l : Latch) (m : Memory) (i : Nat),
    (sharpAt l m i).toNat =
      min ((m.read (l.gray.toNat + i)).toNat + (m.read (l.edge.toNat + i)).toNat) 255

/-- If every byte of the EDGE range is 0, SHARPEN writes to the OUT range exactly the bytes of the
GRAY range (R173). -/
def Obligations.ZeroEdgeGivesOriginal : Prop :=
  ∀ (s : State) (bz rnd : Bool), running (.sharpen bz rnd) s = true →
    s.latch.stages = [.sharpen] → s.raced = false →
    (∀ i, i < s.latch.pixels → s.mem.read (s.latch.edge.toNat + i) = 0#8) →
    ∃ t, exec (.sharpen bz rnd) s = .next t ∧
      ∀ i, i < s.latch.pixels →
        t.mem.read (s.latch.out.toNat + i) = s.mem.read (s.latch.gray.toNat + i)

/-- Two runs of a command whose latched operands agree, and whose memories agree on every byte the
command reads (for LAPLACE under BZ = 0, also on the border bytes of the EDGE range it leaves), leave
the same bytes in its write range (R127, R151, R174). -/
def Obligations.StageOutputDependsOnInputOnly : Prop :=
  ∀ (s u : State) (bz rnd : Bool), u.latch = s.latch →
    ((∀ a, s.latch.rgbRange.has a = true → u.mem.read a = s.mem.read a) →
      ∀ a, s.latch.grayRange.has a = true →
        (grayStage rnd u).mem.read a = (grayStage rnd s).mem.read a) ∧
    ((∀ a, s.latch.grayRange.has a = true → u.mem.read a = s.mem.read a) →
      (bz = true ∨ ∀ y x, y < s.latch.h → x < s.latch.w →
        onBorder s.latch.w s.latch.h (y, x) = true →
        u.mem.read (s.latch.edge.toNat + y * s.latch.w + x) =
          s.mem.read (s.latch.edge.toNat + y * s.latch.w + x)) →
      ∀ a, s.latch.edgeRange.has a = true →
        (laplaceStage bz u).mem.read a = (laplaceStage bz s).mem.read a) ∧
    ((∀ a, s.latch.grayRange.has a = true ∨ s.latch.edgeRange.has a = true →
        u.mem.read a = s.mem.read a) →
      ∀ a, s.latch.outRange.has a = true →
        (sharpenStage u).mem.read a = (sharpenStage s).mem.read a)

/-- The clamp: a value below 0 is stored as 0, one above 255 as 255, any other as itself (R7). -/
def Obligations.ClampSaturates : Prop :=
  ∀ v : Int, ((clampByte v).toNat : Int) = min 255 (max 0 v)
end

