-- ==== Sys2Proof/Laws/State.lean ====
section
/-!
SUPPORT. The fields of the state after each named update, one lemma per field and update, so that no
proof unfolds a record update.
-/

namespace Sys2Proof.Machine

variable (s : State)

@[simp] theorem clearStatus_ie : (clearStatus s).ie = s.ie := rfl
@[simp] theorem clearStatus_busy : (clearStatus s).busy = s.busy := rfl
@[simp] theorem clearStatus_done : (clearStatus s).done = false := rfl
@[simp] theorem clearStatus_err : (clearStatus s).err = false := rfl
@[simp] theorem clearStatus_errCode : (clearStatus s).errCode = .noError := rfl
@[simp] theorem clearStatus_cmd : (clearStatus s).cmd = s.cmd := rfl
@[simp] theorem clearStatus_width : (clearStatus s).width = s.width := rfl
@[simp] theorem clearStatus_height : (clearStatus s).height = s.height := rfl
@[simp] theorem clearStatus_rgbAddr : (clearStatus s).rgbAddr = s.rgbAddr := rfl
@[simp] theorem clearStatus_grayAddr : (clearStatus s).grayAddr = s.grayAddr := rfl
@[simp] theorem clearStatus_edgeAddr : (clearStatus s).edgeAddr = s.edgeAddr := rfl
@[simp] theorem clearStatus_outAddr : (clearStatus s).outAddr = s.outAddr := rfl
@[simp] theorem clearStatus_latch : (clearStatus s).latch = s.latch := rfl
@[simp] theorem clearStatus_engine : (clearStatus s).engine = s.engine := rfl
@[simp] theorem clearStatus_mem : (clearStatus s).mem = s.mem := rfl
@[simp] theorem clearStatus_inReset : (clearStatus s).inReset = s.inReset := rfl
@[simp] theorem clearStatus_platform : (clearStatus s).platform = s.platform := rfl
@[simp] theorem clearStatus_host : (clearStatus s).host = s.host := rfl
@[simp] theorem clearStatus_turns : (clearStatus s).turns = s.turns := rfl
@[simp] theorem clearStatus_replies : (clearStatus s).replies = s.replies := rfl
@[simp] theorem clearStatus_raced : (clearStatus s).raced = s.raced := rfl
@[simp] theorem clearStatus_draws : (clearStatus s).draws = s.draws := rfl

@[simp] theorem reject_ie (e : ErrCode) : (reject e s).ie = s.ie := rfl
@[simp] theorem reject_busy (e : ErrCode) : (reject e s).busy = s.busy := rfl
@[simp] theorem reject_done (e : ErrCode) : (reject e s).done = true := rfl
@[simp] theorem reject_err (e : ErrCode) : (reject e s).err = true := rfl
@[simp] theorem reject_errCode (e : ErrCode) : (reject e s).errCode = e := rfl
@[simp] theorem reject_cmd (e : ErrCode) : (reject e s).cmd = s.cmd := rfl
@[simp] theorem reject_width (e : ErrCode) : (reject e s).width = s.width := rfl
@[simp] theorem reject_height (e : ErrCode) : (reject e s).height = s.height := rfl
@[simp] theorem reject_rgbAddr (e : ErrCode) : (reject e s).rgbAddr = s.rgbAddr := rfl
@[simp] theorem reject_grayAddr (e : ErrCode) : (reject e s).grayAddr = s.grayAddr := rfl
@[simp] theorem reject_edgeAddr (e : ErrCode) : (reject e s).edgeAddr = s.edgeAddr := rfl
@[simp] theorem reject_outAddr (e : ErrCode) : (reject e s).outAddr = s.outAddr := rfl
@[simp] theorem reject_latch (e : ErrCode) : (reject e s).latch = s.latch := rfl
@[simp] theorem reject_engine (e : ErrCode) : (reject e s).engine = s.engine := rfl
@[simp] theorem reject_mem (e : ErrCode) : (reject e s).mem = s.mem := rfl
@[simp] theorem reject_inReset (e : ErrCode) : (reject e s).inReset = s.inReset := rfl
@[simp] theorem reject_platform (e : ErrCode) : (reject e s).platform = s.platform := rfl
@[simp] theorem reject_host (e : ErrCode) : (reject e s).host = s.host := rfl
@[simp] theorem reject_turns (e : ErrCode) : (reject e s).turns = s.turns := rfl
@[simp] theorem reject_replies (e : ErrCode) : (reject e s).replies = s.replies := rfl
@[simp] theorem reject_raced (e : ErrCode) : (reject e s).raced = s.raced := rfl
@[simp] theorem reject_draws (e : ErrCode) : (reject e s).draws = s.draws := rfl

@[simp] theorem overrun_ie : (overrun s).ie = s.ie := rfl
@[simp] theorem overrun_busy : (overrun s).busy = s.busy := rfl
@[simp] theorem overrun_done : (overrun s).done = s.done := rfl
@[simp] theorem overrun_err : (overrun s).err = true := rfl
@[simp] theorem overrun_errCode : (overrun s).errCode = .overrun := rfl
@[simp] theorem overrun_cmd : (overrun s).cmd = s.cmd := rfl
@[simp] theorem overrun_width : (overrun s).width = s.width := rfl
@[simp] theorem overrun_height : (overrun s).height = s.height := rfl
@[simp] theorem overrun_rgbAddr : (overrun s).rgbAddr = s.rgbAddr := rfl
@[simp] theorem overrun_grayAddr : (overrun s).grayAddr = s.grayAddr := rfl
@[simp] theorem overrun_edgeAddr : (overrun s).edgeAddr = s.edgeAddr := rfl
@[simp] theorem overrun_outAddr : (overrun s).outAddr = s.outAddr := rfl
@[simp] theorem overrun_latch : (overrun s).latch = s.latch := rfl
@[simp] theorem overrun_engine : (overrun s).engine = s.engine := rfl
@[simp] theorem overrun_mem : (overrun s).mem = s.mem := rfl
@[simp] theorem overrun_inReset : (overrun s).inReset = s.inReset := rfl
@[simp] theorem overrun_platform : (overrun s).platform = s.platform := rfl
@[simp] theorem overrun_host : (overrun s).host = s.host := rfl
@[simp] theorem overrun_turns : (overrun s).turns = s.turns := rfl
@[simp] theorem overrun_replies : (overrun s).replies = s.replies := rfl
@[simp] theorem overrun_raced : (overrun s).raced = s.raced := rfl
@[simp] theorem overrun_draws : (overrun s).draws = s.draws := rfl

@[simp] theorem acknowledge_ie (v : Word) : (acknowledge v s).ie = s.ie := rfl
@[simp] theorem acknowledge_busy (v : Word) : (acknowledge v s).busy = s.busy := rfl
@[simp] theorem acknowledge_done (v : Word) : (acknowledge v s).done = (s.done && !v.getLsbD 1) := rfl
@[simp] theorem acknowledge_err (v : Word) : (acknowledge v s).err = (s.err && !v.getLsbD 2) := rfl
@[simp] theorem acknowledge_errCode (v : Word) : (acknowledge v s).errCode = (if v.getLsbD 2 then .noError else s.errCode) := rfl
@[simp] theorem acknowledge_cmd (v : Word) : (acknowledge v s).cmd = s.cmd := rfl
@[simp] theorem acknowledge_width (v : Word) : (acknowledge v s).width = s.width := rfl
@[simp] theorem acknowledge_height (v : Word) : (acknowledge v s).height = s.height := rfl
@[simp] theorem acknowledge_rgbAddr (v : Word) : (acknowledge v s).rgbAddr = s.rgbAddr := rfl
@[simp] theorem acknowledge_grayAddr (v : Word) : (acknowledge v s).grayAddr = s.grayAddr := rfl
@[simp] theorem acknowledge_edgeAddr (v : Word) : (acknowledge v s).edgeAddr = s.edgeAddr := rfl
@[simp] theorem acknowledge_outAddr (v : Word) : (acknowledge v s).outAddr = s.outAddr := rfl
@[simp] theorem acknowledge_latch (v : Word) : (acknowledge v s).latch = s.latch := rfl
@[simp] theorem acknowledge_engine (v : Word) : (acknowledge v s).engine = s.engine := rfl
@[simp] theorem acknowledge_mem (v : Word) : (acknowledge v s).mem = s.mem := rfl
@[simp] theorem acknowledge_inReset (v : Word) : (acknowledge v s).inReset = s.inReset := rfl
@[simp] theorem acknowledge_platform (v : Word) : (acknowledge v s).platform = s.platform := rfl
@[simp] theorem acknowledge_host (v : Word) : (acknowledge v s).host = s.host := rfl
@[simp] theorem acknowledge_turns (v : Word) : (acknowledge v s).turns = s.turns := rfl
@[simp] theorem acknowledge_replies (v : Word) : (acknowledge v s).replies = s.replies := rfl
@[simp] theorem acknowledge_raced (v : Word) : (acknowledge v s).raced = s.raced := rfl
@[simp] theorem acknowledge_draws (v : Word) : (acknowledge v s).draws = s.draws := rfl

@[simp] theorem latchCommand_ie : (latchCommand s).ie = s.ie := rfl
@[simp] theorem latchCommand_busy : (latchCommand s).busy = s.busy := rfl
@[simp] theorem latchCommand_done : (latchCommand s).done = s.done := rfl
@[simp] theorem latchCommand_err : (latchCommand s).err = s.err := rfl
@[simp] theorem latchCommand_errCode : (latchCommand s).errCode = s.errCode := rfl
@[simp] theorem latchCommand_cmd : (latchCommand s).cmd = s.cmd := rfl
@[simp] theorem latchCommand_width : (latchCommand s).width = s.width := rfl
@[simp] theorem latchCommand_height : (latchCommand s).height = s.height := rfl
@[simp] theorem latchCommand_rgbAddr : (latchCommand s).rgbAddr = s.rgbAddr := rfl
@[simp] theorem latchCommand_grayAddr : (latchCommand s).grayAddr = s.grayAddr := rfl
@[simp] theorem latchCommand_edgeAddr : (latchCommand s).edgeAddr = s.edgeAddr := rfl
@[simp] theorem latchCommand_outAddr : (latchCommand s).outAddr = s.outAddr := rfl
@[simp] theorem latchCommand_engine : (latchCommand s).engine = s.engine := rfl
@[simp] theorem latchCommand_mem : (latchCommand s).mem = s.mem := rfl
@[simp] theorem latchCommand_inReset : (latchCommand s).inReset = s.inReset := rfl
@[simp] theorem latchCommand_platform : (latchCommand s).platform = s.platform := rfl
@[simp] theorem latchCommand_host : (latchCommand s).host = s.host := rfl
@[simp] theorem latchCommand_turns : (latchCommand s).turns = s.turns := rfl
@[simp] theorem latchCommand_replies : (latchCommand s).replies = s.replies := rfl
@[simp] theorem latchCommand_raced : (latchCommand s).raced = s.raced := rfl
@[simp] theorem latchCommand_draws : (latchCommand s).draws = s.draws := rfl

@[simp] theorem issueStages_ie (i : Instr) : (issueStages i s).ie = s.ie := rfl
@[simp] theorem issueStages_busy (i : Instr) : (issueStages i s).busy = true := rfl
@[simp] theorem issueStages_done (i : Instr) : (issueStages i s).done = s.done := rfl
@[simp] theorem issueStages_err (i : Instr) : (issueStages i s).err = s.err := rfl
@[simp] theorem issueStages_errCode (i : Instr) : (issueStages i s).errCode = s.errCode := rfl
@[simp] theorem issueStages_cmd (i : Instr) : (issueStages i s).cmd = s.cmd := rfl
@[simp] theorem issueStages_width (i : Instr) : (issueStages i s).width = s.width := rfl
@[simp] theorem issueStages_height (i : Instr) : (issueStages i s).height = s.height := rfl
@[simp] theorem issueStages_rgbAddr (i : Instr) : (issueStages i s).rgbAddr = s.rgbAddr := rfl
@[simp] theorem issueStages_grayAddr (i : Instr) : (issueStages i s).grayAddr = s.grayAddr := rfl
@[simp] theorem issueStages_edgeAddr (i : Instr) : (issueStages i s).edgeAddr = s.edgeAddr := rfl
@[simp] theorem issueStages_outAddr (i : Instr) : (issueStages i s).outAddr = s.outAddr := rfl
@[simp] theorem issueStages_latch (i : Instr) : (issueStages i s).latch = { s.latch with stages := stagesOf i } := rfl
@[simp] theorem issueStages_engine (i : Instr) : (issueStages i s).engine = s.engine := rfl
@[simp] theorem issueStages_mem (i : Instr) : (issueStages i s).mem = s.mem := rfl
@[simp] theorem issueStages_inReset (i : Instr) : (issueStages i s).inReset = s.inReset := rfl
@[simp] theorem issueStages_platform (i : Instr) : (issueStages i s).platform = s.platform := rfl
@[simp] theorem issueStages_host (i : Instr) : (issueStages i s).host = s.host := rfl
@[simp] theorem issueStages_turns (i : Instr) : (issueStages i s).turns = s.turns := rfl
@[simp] theorem issueStages_replies (i : Instr) : (issueStages i s).replies = s.replies := rfl
@[simp] theorem issueStages_raced (i : Instr) : (issueStages i s).raced = false := rfl
@[simp] theorem issueStages_draws (i : Instr) : (issueStages i s).draws = s.draws := rfl

@[simp] theorem completeAtStart_ie : (completeAtStart s).ie = s.ie := rfl
@[simp] theorem completeAtStart_busy : (completeAtStart s).busy = s.busy := rfl
@[simp] theorem completeAtStart_done : (completeAtStart s).done = true := rfl
@[simp] theorem completeAtStart_err : (completeAtStart s).err = s.err := rfl
@[simp] theorem completeAtStart_errCode : (completeAtStart s).errCode = s.errCode := rfl
@[simp] theorem completeAtStart_cmd : (completeAtStart s).cmd = s.cmd := rfl
@[simp] theorem completeAtStart_width : (completeAtStart s).width = s.width := rfl
@[simp] theorem completeAtStart_height : (completeAtStart s).height = s.height := rfl
@[simp] theorem completeAtStart_rgbAddr : (completeAtStart s).rgbAddr = s.rgbAddr := rfl
@[simp] theorem completeAtStart_grayAddr : (completeAtStart s).grayAddr = s.grayAddr := rfl
@[simp] theorem completeAtStart_edgeAddr : (completeAtStart s).edgeAddr = s.edgeAddr := rfl
@[simp] theorem completeAtStart_outAddr : (completeAtStart s).outAddr = s.outAddr := rfl
@[simp] theorem completeAtStart_latch : (completeAtStart s).latch = s.latch := rfl
@[simp] theorem completeAtStart_engine : (completeAtStart s).engine = s.engine := rfl
@[simp] theorem completeAtStart_mem : (completeAtStart s).mem = s.mem := rfl
@[simp] theorem completeAtStart_inReset : (completeAtStart s).inReset = s.inReset := rfl
@[simp] theorem completeAtStart_platform : (completeAtStart s).platform = s.platform := rfl
@[simp] theorem completeAtStart_host : (completeAtStart s).host = s.host := rfl
@[simp] theorem completeAtStart_turns : (completeAtStart s).turns = s.turns := rfl
@[simp] theorem completeAtStart_replies : (completeAtStart s).replies = s.replies := rfl
@[simp] theorem completeAtStart_raced : (completeAtStart s).raced = s.raced := rfl
@[simp] theorem completeAtStart_draws : (completeAtStart s).draws = s.draws := rfl

@[simp] theorem finish_ie : (finish s).ie = s.ie := rfl
@[simp] theorem finish_busy : (finish s).busy = false := rfl
@[simp] theorem finish_done : (finish s).done = true := rfl
@[simp] theorem finish_err : (finish s).err = s.err := rfl
@[simp] theorem finish_errCode : (finish s).errCode = s.errCode := rfl
@[simp] theorem finish_cmd : (finish s).cmd = s.cmd := rfl
@[simp] theorem finish_width : (finish s).width = s.width := rfl
@[simp] theorem finish_height : (finish s).height = s.height := rfl
@[simp] theorem finish_rgbAddr : (finish s).rgbAddr = s.rgbAddr := rfl
@[simp] theorem finish_grayAddr : (finish s).grayAddr = s.grayAddr := rfl
@[simp] theorem finish_edgeAddr : (finish s).edgeAddr = s.edgeAddr := rfl
@[simp] theorem finish_outAddr : (finish s).outAddr = s.outAddr := rfl
@[simp] theorem finish_latch : (finish s).latch = { s.latch with stages := [] } := rfl
@[simp] theorem finish_engine : (finish s).engine = s.engine := rfl
@[simp] theorem finish_mem : (finish s).mem = s.mem := rfl
@[simp] theorem finish_inReset : (finish s).inReset = s.inReset := rfl
@[simp] theorem finish_platform : (finish s).platform = s.platform := rfl
@[simp] theorem finish_host : (finish s).host = s.host := rfl
@[simp] theorem finish_turns : (finish s).turns = s.turns := rfl
@[simp] theorem finish_replies : (finish s).replies = s.replies := rfl
@[simp] theorem finish_raced : (finish s).raced = false := rfl
@[simp] theorem finish_draws : (finish s).draws = s.draws := rfl

@[simp] theorem resetRegisters_ie : (resetRegisters s).ie = State.reset.ie := rfl
@[simp] theorem resetRegisters_busy : (resetRegisters s).busy = State.reset.busy := rfl
@[simp] theorem resetRegisters_done : (resetRegisters s).done = State.reset.done := rfl
@[simp] theorem resetRegisters_err : (resetRegisters s).err = State.reset.err := rfl
@[simp] theorem resetRegisters_errCode : (resetRegisters s).errCode = State.reset.errCode := rfl
@[simp] theorem resetRegisters_cmd : (resetRegisters s).cmd = State.reset.cmd := rfl
@[simp] theorem resetRegisters_width : (resetRegisters s).width = State.reset.width := rfl
@[simp] theorem resetRegisters_height : (resetRegisters s).height = State.reset.height := rfl
@[simp] theorem resetRegisters_rgbAddr : (resetRegisters s).rgbAddr = State.reset.rgbAddr := rfl
@[simp] theorem resetRegisters_grayAddr : (resetRegisters s).grayAddr = State.reset.grayAddr := rfl
@[simp] theorem resetRegisters_edgeAddr : (resetRegisters s).edgeAddr = State.reset.edgeAddr := rfl
@[simp] theorem resetRegisters_outAddr : (resetRegisters s).outAddr = State.reset.outAddr := rfl
@[simp] theorem resetRegisters_latch : (resetRegisters s).latch = State.reset.latch := rfl
@[simp] theorem resetRegisters_engine : (resetRegisters s).engine = State.reset.engine := rfl
@[simp] theorem resetRegisters_mem : (resetRegisters s).mem = s.mem := rfl
@[simp] theorem resetRegisters_inReset : (resetRegisters s).inReset = s.inReset := rfl
@[simp] theorem resetRegisters_platform : (resetRegisters s).platform = s.platform := rfl
@[simp] theorem resetRegisters_host : (resetRegisters s).host = s.host := rfl
@[simp] theorem resetRegisters_turns : (resetRegisters s).turns = s.turns := rfl
@[simp] theorem resetRegisters_replies : (resetRegisters s).replies = s.replies := rfl
@[simp] theorem resetRegisters_raced : (resetRegisters s).raced = State.reset.raced := rfl
@[simp] theorem resetRegisters_draws : (resetRegisters s).draws = s.draws := rfl

@[simp] theorem releaseReset_ie : (releaseReset s).ie = s.ie := rfl
@[simp] theorem releaseReset_busy : (releaseReset s).busy = s.busy := rfl
@[simp] theorem releaseReset_done : (releaseReset s).done = s.done := rfl
@[simp] theorem releaseReset_err : (releaseReset s).err = s.err := rfl
@[simp] theorem releaseReset_errCode : (releaseReset s).errCode = s.errCode := rfl
@[simp] theorem releaseReset_cmd : (releaseReset s).cmd = s.cmd := rfl
@[simp] theorem releaseReset_width : (releaseReset s).width = s.width := rfl
@[simp] theorem releaseReset_height : (releaseReset s).height = s.height := rfl
@[simp] theorem releaseReset_rgbAddr : (releaseReset s).rgbAddr = s.rgbAddr := rfl
@[simp] theorem releaseReset_grayAddr : (releaseReset s).grayAddr = s.grayAddr := rfl
@[simp] theorem releaseReset_edgeAddr : (releaseReset s).edgeAddr = s.edgeAddr := rfl
@[simp] theorem releaseReset_outAddr : (releaseReset s).outAddr = s.outAddr := rfl
@[simp] theorem releaseReset_latch : (releaseReset s).latch = s.latch := rfl
@[simp] theorem releaseReset_engine : (releaseReset s).engine = s.engine := rfl
@[simp] theorem releaseReset_mem : (releaseReset s).mem = s.mem := rfl
@[simp] theorem releaseReset_inReset : (releaseReset s).inReset = false := rfl
@[simp] theorem releaseReset_platform : (releaseReset s).platform = s.platform := rfl
@[simp] theorem releaseReset_host : (releaseReset s).host = s.host := rfl
@[simp] theorem releaseReset_turns : (releaseReset s).turns = s.turns := rfl
@[simp] theorem releaseReset_replies : (releaseReset s).replies = s.replies := rfl
@[simp] theorem releaseReset_raced : (releaseReset s).raced = s.raced := rfl
@[simp] theorem releaseReset_draws : (releaseReset s).draws = s.draws := rfl

@[simp] theorem addReply_ie (r : Reply) : (addReply r s).ie = s.ie := rfl
@[simp] theorem addReply_busy (r : Reply) : (addReply r s).busy = s.busy := rfl
@[simp] theorem addReply_done (r : Reply) : (addReply r s).done = s.done := rfl
@[simp] theorem addReply_err (r : Reply) : (addReply r s).err = s.err := rfl
@[simp] theorem addReply_errCode (r : Reply) : (addReply r s).errCode = s.errCode := rfl
@[simp] theorem addReply_cmd (r : Reply) : (addReply r s).cmd = s.cmd := rfl
@[simp] theorem addReply_width (r : Reply) : (addReply r s).width = s.width := rfl
@[simp] theorem addReply_height (r : Reply) : (addReply r s).height = s.height := rfl
@[simp] theorem addReply_rgbAddr (r : Reply) : (addReply r s).rgbAddr = s.rgbAddr := rfl
@[simp] theorem addReply_grayAddr (r : Reply) : (addReply r s).grayAddr = s.grayAddr := rfl
@[simp] theorem addReply_edgeAddr (r : Reply) : (addReply r s).edgeAddr = s.edgeAddr := rfl
@[simp] theorem addReply_outAddr (r : Reply) : (addReply r s).outAddr = s.outAddr := rfl
@[simp] theorem addReply_latch (r : Reply) : (addReply r s).latch = s.latch := rfl
@[simp] theorem addReply_engine (r : Reply) : (addReply r s).engine = s.engine := rfl
@[simp] theorem addReply_mem (r : Reply) : (addReply r s).mem = s.mem := rfl
@[simp] theorem addReply_inReset (r : Reply) : (addReply r s).inReset = s.inReset := rfl
@[simp] theorem addReply_platform (r : Reply) : (addReply r s).platform = s.platform := rfl
@[simp] theorem addReply_host (r : Reply) : (addReply r s).host = s.host := rfl
@[simp] theorem addReply_turns (r : Reply) : (addReply r s).turns = s.turns := rfl
@[simp] theorem addReply_replies (r : Reply) : (addReply r s).replies = s.replies ++ [r] := rfl
@[simp] theorem addReply_raced (r : Reply) : (addReply r s).raced = s.raced := rfl
@[simp] theorem addReply_draws (r : Reply) : (addReply r s).draws = s.draws := rfl

@[simp] theorem grayStage_ie (rnd : Bool) : (grayStage rnd s).ie = s.ie := rfl
@[simp] theorem grayStage_busy (rnd : Bool) : (grayStage rnd s).busy = s.busy := rfl
@[simp] theorem grayStage_done (rnd : Bool) : (grayStage rnd s).done = s.done := rfl
@[simp] theorem grayStage_err (rnd : Bool) : (grayStage rnd s).err = s.err := rfl
@[simp] theorem grayStage_errCode (rnd : Bool) : (grayStage rnd s).errCode = s.errCode := rfl
@[simp] theorem grayStage_cmd (rnd : Bool) : (grayStage rnd s).cmd = s.cmd := rfl
@[simp] theorem grayStage_width (rnd : Bool) : (grayStage rnd s).width = s.width := rfl
@[simp] theorem grayStage_height (rnd : Bool) : (grayStage rnd s).height = s.height := rfl
@[simp] theorem grayStage_rgbAddr (rnd : Bool) : (grayStage rnd s).rgbAddr = s.rgbAddr := rfl
@[simp] theorem grayStage_grayAddr (rnd : Bool) : (grayStage rnd s).grayAddr = s.grayAddr := rfl
@[simp] theorem grayStage_edgeAddr (rnd : Bool) : (grayStage rnd s).edgeAddr = s.edgeAddr := rfl
@[simp] theorem grayStage_outAddr (rnd : Bool) : (grayStage rnd s).outAddr = s.outAddr := rfl
@[simp] theorem grayStage_latch (rnd : Bool) : (grayStage rnd s).latch = s.latch := rfl
@[simp] theorem grayStage_engine (rnd : Bool) : (grayStage rnd s).engine = s.engine := rfl
@[simp] theorem grayStage_mem (rnd : Bool) : (grayStage rnd s).mem = s.mem.writeAll (grayCells rnd s.latch s.mem) := rfl
@[simp] theorem grayStage_inReset (rnd : Bool) : (grayStage rnd s).inReset = s.inReset := rfl
@[simp] theorem grayStage_platform (rnd : Bool) : (grayStage rnd s).platform = s.platform := rfl
@[simp] theorem grayStage_host (rnd : Bool) : (grayStage rnd s).host = s.host := rfl
@[simp] theorem grayStage_turns (rnd : Bool) : (grayStage rnd s).turns = s.turns := rfl
@[simp] theorem grayStage_replies (rnd : Bool) : (grayStage rnd s).replies = s.replies := rfl
@[simp] theorem grayStage_raced (rnd : Bool) : (grayStage rnd s).raced = s.raced := rfl
@[simp] theorem grayStage_draws (rnd : Bool) : (grayStage rnd s).draws = s.draws := rfl

@[simp] theorem laplaceStage_ie (bz : Bool) : (laplaceStage bz s).ie = s.ie := rfl
@[simp] theorem laplaceStage_busy (bz : Bool) : (laplaceStage bz s).busy = s.busy := rfl
@[simp] theorem laplaceStage_done (bz : Bool) : (laplaceStage bz s).done = s.done := rfl
@[simp] theorem laplaceStage_err (bz : Bool) : (laplaceStage bz s).err = s.err := rfl
@[simp] theorem laplaceStage_errCode (bz : Bool) : (laplaceStage bz s).errCode = s.errCode := rfl
@[simp] theorem laplaceStage_cmd (bz : Bool) : (laplaceStage bz s).cmd = s.cmd := rfl
@[simp] theorem laplaceStage_width (bz : Bool) : (laplaceStage bz s).width = s.width := rfl
@[simp] theorem laplaceStage_height (bz : Bool) : (laplaceStage bz s).height = s.height := rfl
@[simp] theorem laplaceStage_rgbAddr (bz : Bool) : (laplaceStage bz s).rgbAddr = s.rgbAddr := rfl
@[simp] theorem laplaceStage_grayAddr (bz : Bool) : (laplaceStage bz s).grayAddr = s.grayAddr := rfl
@[simp] theorem laplaceStage_edgeAddr (bz : Bool) : (laplaceStage bz s).edgeAddr = s.edgeAddr := rfl
@[simp] theorem laplaceStage_outAddr (bz : Bool) : (laplaceStage bz s).outAddr = s.outAddr := rfl
@[simp] theorem laplaceStage_latch (bz : Bool) : (laplaceStage bz s).latch = s.latch := rfl
@[simp] theorem laplaceStage_mem (bz : Bool) : (laplaceStage bz s).mem = s.mem.writeAll (laplaceCells bz s.latch s.mem) := rfl
@[simp] theorem laplaceStage_inReset (bz : Bool) : (laplaceStage bz s).inReset = s.inReset := rfl
@[simp] theorem laplaceStage_platform (bz : Bool) : (laplaceStage bz s).platform = s.platform := rfl
@[simp] theorem laplaceStage_host (bz : Bool) : (laplaceStage bz s).host = s.host := rfl
@[simp] theorem laplaceStage_turns (bz : Bool) : (laplaceStage bz s).turns = s.turns := rfl
@[simp] theorem laplaceStage_replies (bz : Bool) : (laplaceStage bz s).replies = s.replies := rfl
@[simp] theorem laplaceStage_raced (bz : Bool) : (laplaceStage bz s).raced = s.raced := rfl
@[simp] theorem laplaceStage_draws (bz : Bool) : (laplaceStage bz s).draws = s.draws + engineDraws := rfl

@[simp] theorem sharpenStage_ie : (sharpenStage s).ie = s.ie := rfl
@[simp] theorem sharpenStage_busy : (sharpenStage s).busy = s.busy := rfl
@[simp] theorem sharpenStage_done : (sharpenStage s).done = s.done := rfl
@[simp] theorem sharpenStage_err : (sharpenStage s).err = s.err := rfl
@[simp] theorem sharpenStage_errCode : (sharpenStage s).errCode = s.errCode := rfl
@[simp] theorem sharpenStage_cmd : (sharpenStage s).cmd = s.cmd := rfl
@[simp] theorem sharpenStage_width : (sharpenStage s).width = s.width := rfl
@[simp] theorem sharpenStage_height : (sharpenStage s).height = s.height := rfl
@[simp] theorem sharpenStage_rgbAddr : (sharpenStage s).rgbAddr = s.rgbAddr := rfl
@[simp] theorem sharpenStage_grayAddr : (sharpenStage s).grayAddr = s.grayAddr := rfl
@[simp] theorem sharpenStage_edgeAddr : (sharpenStage s).edgeAddr = s.edgeAddr := rfl
@[simp] theorem sharpenStage_outAddr : (sharpenStage s).outAddr = s.outAddr := rfl
@[simp] theorem sharpenStage_latch : (sharpenStage s).latch = s.latch := rfl
@[simp] theorem sharpenStage_engine : (sharpenStage s).engine = s.engine := rfl
@[simp] theorem sharpenStage_mem : (sharpenStage s).mem = s.mem.writeAll (sharpenCells s.latch s.mem) := rfl
@[simp] theorem sharpenStage_inReset : (sharpenStage s).inReset = s.inReset := rfl
@[simp] theorem sharpenStage_platform : (sharpenStage s).platform = s.platform := rfl
@[simp] theorem sharpenStage_host : (sharpenStage s).host = s.host := rfl
@[simp] theorem sharpenStage_turns : (sharpenStage s).turns = s.turns := rfl
@[simp] theorem sharpenStage_replies : (sharpenStage s).replies = s.replies := rfl
@[simp] theorem sharpenStage_raced : (sharpenStage s).raced = s.raced := rfl
@[simp] theorem sharpenStage_draws : (sharpenStage s).draws = s.draws := rfl

@[simp] theorem spoil_ie (rs : List Range) : (spoil rs s).ie = s.ie := rfl
@[simp] theorem spoil_busy (rs : List Range) : (spoil rs s).busy = s.busy := rfl
@[simp] theorem spoil_done (rs : List Range) : (spoil rs s).done = s.done := rfl
@[simp] theorem spoil_err (rs : List Range) : (spoil rs s).err = s.err := rfl
@[simp] theorem spoil_errCode (rs : List Range) : (spoil rs s).errCode = s.errCode := rfl
@[simp] theorem spoil_cmd (rs : List Range) : (spoil rs s).cmd = s.cmd := rfl
@[simp] theorem spoil_width (rs : List Range) : (spoil rs s).width = s.width := rfl
@[simp] theorem spoil_height (rs : List Range) : (spoil rs s).height = s.height := rfl
@[simp] theorem spoil_rgbAddr (rs : List Range) : (spoil rs s).rgbAddr = s.rgbAddr := rfl
@[simp] theorem spoil_grayAddr (rs : List Range) : (spoil rs s).grayAddr = s.grayAddr := rfl
@[simp] theorem spoil_edgeAddr (rs : List Range) : (spoil rs s).edgeAddr = s.edgeAddr := rfl
@[simp] theorem spoil_outAddr (rs : List Range) : (spoil rs s).outAddr = s.outAddr := rfl
@[simp] theorem spoil_latch (rs : List Range) : (spoil rs s).latch = s.latch := rfl
@[simp] theorem spoil_engine (rs : List Range) : (spoil rs s).engine = s.engine := rfl
@[simp] theorem spoil_mem (rs : List Range) : (spoil rs s).mem = s.mem.writeAll (drawCells s.draws (rs.flatMap Range.addresses)) := rfl
@[simp] theorem spoil_inReset (rs : List Range) : (spoil rs s).inReset = s.inReset := rfl
@[simp] theorem spoil_platform (rs : List Range) : (spoil rs s).platform = s.platform := rfl
@[simp] theorem spoil_host (rs : List Range) : (spoil rs s).host = s.host := rfl
@[simp] theorem spoil_turns (rs : List Range) : (spoil rs s).turns = s.turns := rfl
@[simp] theorem spoil_replies (rs : List Range) : (spoil rs s).replies = s.replies := rfl
@[simp] theorem spoil_raced (rs : List Range) : (spoil rs s).raced = s.raced := rfl

end Sys2Proof.Machine
end

