-- ==== Sys2Proof/Laws/Memory.lean ====
section
/-!
SUPPORT. Device memory: a read after a write, a list of writes, the canonical form, and the byte
writes of draws.
-/

namespace Sys2Proof.Machine

@[simp] theorem Memory.find_nil (a : Nat) : Memory.find [] a = none := rfl

@[simp] theorem Memory.find_cons (c : Host.Cell) (m : Memory) (a : Nat) :
    Memory.find (c :: m) a = if a = c.1 then some c.2 else Memory.find m a := rfl

theorem Memory.find_write (m : Memory) (a b : Nat) (v : Byte) :
    (m.write a v).find b = if b = a then some v else m.find b := by
  induction m with
  | nil => simp [Memory.write]
  | cons c m ih =>
    obtain ⟨k, u⟩ := c
    simp only [Memory.write]
    split
    · simp
    · split
      · subst k; simp only [Memory.find_cons]; split <;> simp_all
      · next hne =>
        simp only [Memory.find_cons, ih]
        split
        · next hb => rw [if_neg (fun h => hne (h.symm.trans hb))]
        · rfl

/-- A read after a write: the value written at its address, the old value elsewhere (R71). -/
theorem Memory.read_write (m : Memory) (a b : Nat) (v : Byte) :
    (m.write a v).read b = if b = a then v else m.read b := by
  simp only [Memory.read, Memory.find_write]; split <;> simp

@[simp] theorem Memory.writeAll_nil (m : Memory) : m.writeAll [] = m := rfl

@[simp] theorem Memory.writeAll_cons (m : Memory) (c : Host.Cell) (cs : List Host.Cell) :
    m.writeAll (c :: cs) = (m.write c.1 c.2).writeAll cs := rfl

theorem Memory.writeAll_append (m : Memory) (cs ds : List Host.Cell) :
    m.writeAll (cs ++ ds) = (m.writeAll cs).writeAll ds := by
  induction cs generalizing m with
  | nil => rfl
  | cons c cs ih => simp [ih]

/-- An address none of the writes names reads as before. -/
theorem Memory.read_writeAll_of_notMem (cs : List Host.Cell) (m : Memory) (a : Nat)
    (h : ∀ c ∈ cs, c.1 ≠ a) : (m.writeAll cs).read a = m.read a := by
  induction cs generalizing m with
  | nil => rfl
  | cons c cs ih =>
    simp only [List.mem_cons, forall_eq_or_imp] at h
    rw [Memory.writeAll_cons, ih _ h.2, Memory.read_write, if_neg (Ne.symm h.1)]

/-- An address that one write names, and that every write naming it gives the same value, reads as
that value. -/
theorem Memory.read_writeAll_of_mem (cs : List Host.Cell) (m : Memory) (a : Nat) (v : Byte)
    (hmem : (a, v) ∈ cs) (huniq : ∀ c ∈ cs, c.1 = a → c.2 = v) : (m.writeAll cs).read a = v := by
  induction cs generalizing m with
  | nil => simp at hmem
  | cons c cs ih =>
    rw [Memory.writeAll_cons]
    by_cases hin : (a, v) ∈ cs
    · exact ih _ hin (fun d hd => huniq d (List.mem_cons_of_mem _ hd))
    · have hc : (a, v) = c := by simpa [hin] using hmem
      subst hc
      by_cases hex : ∃ d ∈ cs, d.1 = a
      · obtain ⟨d, hd, hda⟩ := hex
        have := huniq d (List.mem_cons_of_mem _ hd) hda
        exact absurd (by rw [← hda, ← this]; exact hd) hin
      · rw [Memory.read_writeAll_of_notMem _ _ _ (fun d hd hda => hex ⟨d, hd, hda⟩),
          Memory.read_write, if_pos rfl]

/-- The writes of a run of bytes: byte `i` at `base + i`. -/
theorem Memory.read_writeRun (m : Memory) (base n : Nat) (f : Nat → Byte) (a : Nat) :
    (m.writeAll ((List.range n).map (fun i => (base + i, f i)))).read a =
      if base ≤ a ∧ a < base + n then f (a - base) else m.read a := by
  split
  · next h =>
    refine Memory.read_writeAll_of_mem _ _ _ _ ?_ ?_
    · exact List.mem_map.2 ⟨a - base, by simp; omega, by simp; omega⟩
    · simp only [List.mem_map, List.mem_range]
      rintro c ⟨i, _, rfl⟩ rfl
      simp
  · next h =>
    refine Memory.read_writeAll_of_notMem _ _ _ ?_
    simp only [List.mem_map, List.mem_range]
    rintro c ⟨i, hi, rfl⟩ rfl
    exact h ⟨by simp, by simpa using hi⟩

/-- The addresses a write leaves listed. -/
theorem Memory.mem_write {m : Memory} {a : Nat} {v : Byte} {c : Host.Cell}
    (h : c ∈ m.write a v) : c = (a, v) ∨ c ∈ m := by
  induction m with
  | nil => simpa [Memory.write] using h
  | cons d m ih =>
    obtain ⟨k, u⟩ := d
    simp only [Memory.write] at h
    split at h
    · simpa using h
    · split at h
      · simp only [List.mem_cons] at h ⊢; tauto
      · simp only [List.mem_cons] at h ⊢
        rcases h with h | h
        · exact Or.inr (Or.inl h)
        · rcases ih h with h | h
          · exact Or.inl h
          · exact Or.inr (Or.inr h)

/-- A write keeps the canonical form. -/
theorem Memory.wf_write {m : Memory} (h : m.wf) (a : Nat) (v : Byte) : (m.write a v).wf := by
  induction m with
  | nil => simp [Memory.write, Memory.wf]
  | cons d m ih =>
    obtain ⟨k, u⟩ := d
    obtain ⟨hk, hm⟩ := List.pairwise_cons.1 h
    simp only [Memory.write]
    split
    · next hlt =>
      refine List.pairwise_cons.2 ⟨?_, h⟩
      intro c hc
      rcases List.mem_cons.1 hc with rfl | hc
      · exact hlt
      · exact Nat.lt_trans hlt (hk c hc)
    · split
      · next heq => subst heq; exact List.pairwise_cons.2 ⟨hk, hm⟩
      · next h1 h2 =>
        refine List.pairwise_cons.2 ⟨?_, ih hm⟩
        intro c hc
        rcases Memory.mem_write hc with rfl | hc
        · simp only; omega
        · exact hk c hc

/-- A list of writes keeps the canonical form. -/
theorem Memory.wf_writeAll {m : Memory} (h : m.wf) (cs : List Host.Cell) : (m.writeAll cs).wf := by
  induction cs generalizing m with
  | nil => exact h
  | cons c cs ih => exact ih (Memory.wf_write h _ _)

/-- A list of writes inside a bound keeps the memory inside it. -/
theorem Memory.inside_writeAll {m : Memory} {n : Nat} (h : ∀ c ∈ m, c.1 < n) (cs : List Host.Cell)
    (hcs : ∀ c ∈ cs, c.1 < n) : ∀ c ∈ m.writeAll cs, c.1 < n := by
  induction cs generalizing m with
  | nil => exact h
  | cons d cs ih =>
    simp only [List.mem_cons, forall_eq_or_imp] at hcs
    refine ih ?_ hcs.2
    intro c hc
    rcases Memory.mem_write hc with rfl | hc
    · exact hcs.1
    · exact h c hc

theorem wf_reset : State.reset.mem.wf := List.Pairwise.nil

/-- The addresses of the draw cells are the addresses asked for. -/
@[simp] theorem drawCells_map_fst (n : Nat) (as : List Nat) :
    (drawCells n as).map Prod.fst = as := by
  induction as generalizing n with
  | nil => rfl
  | cons a as ih => simp [drawCells, ih]

@[simp] theorem drawCells_length (n : Nat) (as : List Nat) :
    (drawCells n as).length = as.length := by
  rw [← List.length_map (f := Prod.fst), drawCells_map_fst]

/-- Each draw cell holds a draw numbered from `n` on. -/
theorem mem_drawCells {n : Nat} {as : List Nat} {c : Host.Cell} (h : c ∈ drawCells n as) :
    c.1 ∈ as ∧ ∃ k, n ≤ k ∧ k < n + as.length ∧ c.2 = Config.freeByte k := by
  induction as generalizing n with
  | nil => simp [drawCells] at h
  | cons a as ih =>
    simp only [drawCells, List.mem_cons] at h
    rcases h with rfl | h
    · exact ⟨by simp, n, Nat.le_refl _, by simp, rfl⟩
    · obtain ⟨h1, k, h2, h3, h4⟩ := ih h
      exact ⟨by simp [h1], k, by omega, by simp; omega, h4⟩

/-- After the writes of draws, a byte asked for holds one of the draws. -/
theorem Memory.read_writeAll_drawCells {n : Nat} {as : List Nat} {a : Nat} (h : a ∈ as)
    (m : Memory) : ∃ k, n ≤ k ∧ k < n + as.length ∧
      (m.writeAll (drawCells n as)).read a = Config.freeByte k := by
  induction as generalizing n m with
  | nil => simp at h
  | cons b as ih =>
    simp only [drawCells, Memory.writeAll_cons]
    by_cases hin : a ∈ as
    · obtain ⟨k, h1, h2, h3⟩ := ih (n := n + 1) hin (m.write b (Config.freeByte n))
      exact ⟨k, by omega, by simp; omega, h3⟩
    · have hab : a = b := by simpa [hin] using h
      subst hab
      refine ⟨n, Nat.le_refl _, by simp, ?_⟩
      rw [Memory.read_writeAll_of_notMem, Memory.read_write, if_pos rfl]
      intro c hc hca
      exact hin (hca ▸ (mem_drawCells hc).1)

/-- The addresses of a range are those it has. -/
@[simp] theorem Range.mem_addresses (r : Range) (a : Nat) : a ∈ r.addresses ↔ r.has a = true := by
  simp only [Range.addresses, List.mem_map, List.mem_range, Range.has, Bool.and_eq_true,
    decide_eq_true_eq]
  constructor
  · rintro ⟨k, hk, rfl⟩; omega
  · rintro ⟨h1, h2⟩; exact ⟨a - r.base, by omega, by omega⟩

/-- The addresses of several ranges are those that lie in one of them. -/
theorem mem_flatMap_addresses (rs : List Range) (a : Nat) :
    a ∈ rs.flatMap Range.addresses ↔ inRanges rs a = true := by
  simp [inRanges, List.mem_flatMap, List.any_eq_true]

/-- Spoiling ranges leaves every byte outside them. -/
theorem read_spoil_outside {rs : List Range} {a : Nat} (h : inRanges rs a = false) (s : State) :
    (spoil rs s).mem.read a = s.mem.read a := by
  rw [spoil_mem]
  refine Memory.read_writeAll_of_notMem _ _ _ ?_
  intro c hc hca
  have := (mem_drawCells hc).1
  rw [hca, mem_flatMap_addresses, h] at this
  exact Bool.noConfusion this

/-- Spoiling ranges makes every byte inside them a draw. -/
theorem read_spoil_inside {rs : List Range} {a : Nat} (h : inRanges rs a = true) (s : State) :
    ∃ k, s.draws ≤ k ∧ k < (spoil rs s).draws ∧ (spoil rs s).mem.read a = Config.freeByte k := by
  obtain ⟨k, h1, h2, h3⟩ :=
    Memory.read_writeAll_drawCells (n := s.draws) ((mem_flatMap_addresses rs a).2 h) s.mem
  exact ⟨k, h1, by simpa [spoil] using h2, by rw [spoil_mem]; exact h3⟩

end Sys2Proof.Machine
end

