-- ==== Sys2Proof/Laws/Stages.lean ====
section
/-!
SUPPORT. What the three stages leave in device memory, byte by byte, and that their writes stay in
their ranges.
-/

namespace Sys2Proof.Machine

/-! The raster -/

theorem mem_rasterPixels {w h : Nat} {p : Pixel} :
    p ∈ rasterPixels w h ↔ p.1 < h ∧ p.2 < w := by
  obtain ⟨y, x⟩ := p
  simp [rasterPixels, List.mem_flatMap]

/-- The index of a pixel is below W·H. -/
theorem pixelIndex_lt {w h y x : Nat} (hy : y < h) (hx : x < w) : y * w + x < w * h := by
  have h1 : (y + 1) * w ≤ h * w := Nat.mul_le_mul_right w hy
  rw [Nat.add_mul, Nat.one_mul] at h1
  rw [Nat.mul_comm w h]
  omega

/-- Two pixels of one raster with the same index are one pixel. -/
theorem pixelIndex_inj {w y x y' x' : Nat} (hx : x < w) (hx' : x' < w)
    (h : y * w + x = y' * w + x') : y = y' ∧ x = x' := by
  have hw : 0 < w := by omega
  have h1 : (x + w * y) / w = (x' + w * y') / w := by
    rw [Nat.mul_comm w y, Nat.mul_comm w y', Nat.add_comm x, Nat.add_comm x', h]
  rw [Nat.add_mul_div_left _ _ hw, Nat.add_mul_div_left _ _ hw, Nat.div_eq_of_lt hx,
    Nat.div_eq_of_lt hx'] at h1
  have hy : y = y' := by omega
  subst hy
  exact ⟨rfl, by omega⟩

/-- Two pixels of one raster at one address are one pixel. -/
theorem pixelAddr_inj {b w y x y' x' : Nat} (hx : x < w) (hx' : x' < w)
    (h : b + y * w + x = b + y' * w + x') : y = y' ∧ x = x' :=
  pixelIndex_inj hx hx' (by omega)

/-- Every index below W·H is the index of a pixel. -/
theorem exists_pixel_of_lt {w h i : Nat} (hi : i < w * h) :
    ∃ y x, y < h ∧ x < w ∧ i = y * w + x := by
  have hw : 0 < w := by
    rcases Nat.eq_zero_or_pos w with rfl | h0
    · simp at hi
    · exact h0
  refine ⟨i / w, i % w, ?_, Nat.mod_lt _ hw, ?_⟩
  · exact Nat.div_lt_of_lt_mul hi
  · rw [Nat.mul_comm]; exact (Nat.div_add_mod i w).symm

theorem onBorder_eq_false {w h y x : Nat} :
    onBorder w h (y, x) = false ↔ 1 ≤ y ∧ y + 1 ≠ h ∧ 1 ≤ x ∧ x + 1 ≠ w := by
  simp only [onBorder, Bool.or_eq_false_iff, decide_eq_false_iff_not]
  omega

theorem onBorder_eq_true {w h y x : Nat} :
    onBorder w h (y, x) = true ↔ y = 0 ∨ y + 1 = h ∨ x = 0 ∨ x + 1 = w := by
  simp only [onBorder, Bool.or_eq_true, decide_eq_true_eq]
  omega

/-! Writes stay in their ranges -/

theorem Range.has_iff (r : Range) (a : Nat) :
    r.has a = true ↔ r.base ≤ a ∧ a < r.base + r.len := by simp [Range.has]

theorem grayCells_inside {rnd : Bool} {l : Latch} {m : Memory} {c : Host.Cell}
    (h : c ∈ grayCells rnd l m) : l.grayRange.has c.1 = true := by
  simp only [grayCells, List.mem_map, List.mem_range] at h
  obtain ⟨i, hi, rfl⟩ := h
  simp [Range.has_iff, Latch.grayRange, hi]

theorem sharpenCells_inside {l : Latch} {m : Memory} {c : Host.Cell}
    (h : c ∈ sharpenCells l m) : l.outRange.has c.1 = true := by
  simp only [sharpenCells, List.mem_map, List.mem_range] at h
  obtain ⟨i, hi, rfl⟩ := h
  simp [Range.has_iff, Latch.outRange, hi]

theorem mem_interiorCells {l : Latch} {m : Memory} {c : Host.Cell} :
    c ∈ interiorCells l m ↔ ∃ y x, y < l.h ∧ x < l.w ∧ onBorder l.w l.h (y, x) = false ∧
      c = (l.edge.toNat + y * l.w + x, edgeAt l m y x) := by
  simp only [interiorCells, List.mem_map, List.mem_filter, mem_rasterPixels, Bool.not_eq_true']
  constructor
  · rintro ⟨⟨y, x⟩, ⟨⟨hy, hx⟩, hb⟩, rfl⟩
    exact ⟨y, x, hy, hx, hb, rfl⟩
  · rintro ⟨y, x, hy, hx, hb, rfl⟩
    exact ⟨(y, x), ⟨⟨hy, hx⟩, hb⟩, rfl⟩

theorem mem_borderCells {bz : Bool} {l : Latch} {c : Host.Cell} :
    c ∈ borderCells bz l ↔ bz = true ∧ ∃ y x, y < l.h ∧ x < l.w ∧
      onBorder l.w l.h (y, x) = true ∧ c = (l.edge.toNat + y * l.w + x, 0#8) := by
  cases bz
  · simp [borderCells]
  · simp only [borderCells, if_true, List.mem_map, List.mem_filter, mem_rasterPixels, true_and]
    constructor
    · rintro ⟨⟨y, x⟩, ⟨⟨hy, hx⟩, hb⟩, rfl⟩
      exact ⟨y, x, hy, hx, hb, rfl⟩
    · rintro ⟨y, x, hy, hx, hb, rfl⟩
      exact ⟨(y, x), ⟨⟨hy, hx⟩, hb⟩, rfl⟩

theorem laplaceCells_inside {bz : Bool} {l : Latch} {m : Memory} {c : Host.Cell}
    (h : c ∈ laplaceCells bz l m) : l.edgeRange.has c.1 = true := by
  have key : ∀ y x, y < l.h → x < l.w →
      l.edgeRange.has (l.edge.toNat + y * l.w + x) = true := by
    intro y x hy hx
    have := pixelIndex_lt hy hx
    simp only [Range.has_iff, Latch.edgeRange, Latch.pixels]
    omega
  rcases List.mem_append.1 h with h | h
  · obtain ⟨y, x, hy, hx, _, rfl⟩ := mem_interiorCells.1 h
    exact key y x hy hx
  · obtain ⟨_, y, x, hy, hx, _, rfl⟩ := mem_borderCells.1 h
    exact key y x hy hx

/-! What a byte reads after a stage -/

theorem read_grayStage (rnd : Bool) (s : State) (a : Nat) :
    (grayStage rnd s).mem.read a =
      if s.latch.gray.toNat ≤ a ∧ a < s.latch.gray.toNat + s.latch.pixels then
        lumaAt rnd s.latch s.mem (a - s.latch.gray.toNat)
      else s.mem.read a := by
  rw [grayStage_mem, grayCells, Memory.read_writeRun]

theorem read_sharpenStage (s : State) (a : Nat) :
    (sharpenStage s).mem.read a =
      if s.latch.out.toNat ≤ a ∧ a < s.latch.out.toNat + s.latch.pixels then
        sharpAt s.latch s.mem (a - s.latch.out.toNat)
      else s.mem.read a := by
  rw [sharpenStage_mem, sharpenCells, Memory.read_writeRun]

/-- An interior pixel's byte after the LAPLACE stage (R144). -/
theorem read_laplaceStage_interior (bz : Bool) (s : State) {y x : Nat} (hy : y < s.latch.h)
    (hx : x < s.latch.w) (hb : onBorder s.latch.w s.latch.h (y, x) = false) :
    (laplaceStage bz s).mem.read (s.latch.edge.toNat + y * s.latch.w + x) =
      edgeAt s.latch s.mem y x := by
  rw [laplaceStage_mem]
  refine Memory.read_writeAll_of_mem _ _ _ _ ?_ ?_
  · exact List.mem_append_left _ (mem_interiorCells.2 ⟨y, x, hy, hx, hb, rfl⟩)
  · intro c hc hca
    rcases List.mem_append.1 hc with h | h
    · obtain ⟨y', x', hy', hx', hb', rfl⟩ := mem_interiorCells.1 h
      obtain ⟨rfl, rfl⟩ := pixelAddr_inj hx' hx hca
      rfl
    · obtain ⟨_, y', x', hy', hx', hb', rfl⟩ := mem_borderCells.1 h
      obtain ⟨rfl, rfl⟩ := pixelAddr_inj hx' hx hca
      rw [hb] at hb'; exact Bool.noConfusion hb'

/-- A border pixel's byte after the LAPLACE stage (R145). -/
theorem read_laplaceStage_border (bz : Bool) (s : State) {y x : Nat} (hy : y < s.latch.h)
    (hx : x < s.latch.w) (hb : onBorder s.latch.w s.latch.h (y, x) = true) :
    (laplaceStage bz s).mem.read (s.latch.edge.toNat + y * s.latch.w + x) =
      if bz then 0#8 else s.mem.read (s.latch.edge.toNat + y * s.latch.w + x) := by
  rw [laplaceStage_mem]
  have hint : ∀ c ∈ interiorCells s.latch s.mem,
      c.1 ≠ s.latch.edge.toNat + y * s.latch.w + x := by
    intro c hc hca
    obtain ⟨y', x', hy', hx', hb', rfl⟩ := mem_interiorCells.1 hc
    obtain ⟨rfl, rfl⟩ := pixelAddr_inj hx' hx hca
    rw [hb] at hb'; exact Bool.noConfusion hb'
  cases bz
  · refine Memory.read_writeAll_of_notMem _ _ _ ?_
    intro c hc
    rcases List.mem_append.1 hc with h | h
    · exact hint c h
    · exact Bool.noConfusion (mem_borderCells.1 h).1
  · refine Memory.read_writeAll_of_mem _ _ _ _ ?_ ?_
    · exact List.mem_append_right _ (mem_borderCells.2 ⟨rfl, y, x, hy, hx, hb, rfl⟩)
    · intro c hc hca
      rcases List.mem_append.1 hc with h | h
      · exact absurd hca (hint c h)
      · obtain ⟨_, y', x', _, _, _, rfl⟩ := mem_borderCells.1 h
        rfl

/-- A byte outside the EDGE range after the LAPLACE stage. -/
theorem read_laplaceStage_outside (bz : Bool) (s : State) {a : Nat}
    (h : s.latch.edgeRange.has a = false) :
    (laplaceStage bz s).mem.read a = s.mem.read a := by
  rw [laplaceStage_mem]
  refine Memory.read_writeAll_of_notMem _ _ _ ?_
  rintro c hc rfl
  rw [laplaceCells_inside hc] at h
  exact Bool.noConfusion h

end Sys2Proof.Machine
end

