-- ==== Sys2Proof/Laws/Control.lean ====
section
/-!
SUPPORT. What the shared control operations can do: one step of a command, the sequencer, START, a
RegWrite, a host operation, and the choice of the agent that moves.
-/

namespace Sys2Proof.Machine

/-! Commands and stages -/

/-- The BZ bit of a command. -/
def bzOf : Instr → Bool
  | .nop bz _ | .gray bz _ | .laplace bz _ | .sharpen bz _ | .pipeline bz _ => bz

/-- The RND bit of a command. -/
def rndOf : Instr → Bool
  | .nop _ rnd | .gray _ rnd | .laplace _ rnd | .sharpen _ rnd | .pipeline _ rnd => rnd

/-- What one stage of a command does before the sequencer advances. -/
def stageEffect (i : Instr) (st : Stage) (s : State) : State :=
  match st with
  | .gray => grayStage (rndOf i) s
  | .laplace => laplaceStage (bzOf i) s
  | .sharpen => sharpenStage s

theorem running_iff (i : Instr) (s : State) :
    running i s = true ↔ s.busy = true ∧ decode s.latch.cmd = .command i ∧
      checkOperands i s.latch s.platform = .noError := by
  simp [running, and_assoc]

theorem running_busy {i : Instr} {s : State} (h : running i s = true) : s.busy = true :=
  ((running_iff i s).1 h).1

/-- A stage step of a running command runs the head of L.stages and advances the sequencer. -/
theorem exec_running {i : Instr} {s : State} {st : Stage} {rest : List Stage}
    (h : running i s = true) (hs : s.latch.stages = st :: rest) (hm : st ∈ stagesOf i) :
    exec i s = .next (advance (stageEffect i st s)) := by
  have hb := running_busy h
  cases i <;> cases st <;> simp_all [stagesOf] <;>
    simp [exec, execGray, execLaplace, execSharpen, execPipeline, stageEffect, bzOf, rndOf, h, hb, hs]

/-- A command with operands, taken while the core is idle, is checked and issued or rejected. -/
theorem exec_idle {i : Instr} {s : State} (hb : s.busy = false) (ho : hasOperands i = true) :
    exec i s = .next (issueOrReject i s) := by
  cases i <;>
    simp_all [hasOperands, exec, execGray, execLaplace, execSharpen, execPipeline]

theorem exec_nop (bz rnd : Bool) {s : State} (hb : s.busy = false) :
    exec (.nop bz rnd) s = .next (completeAtStart s) := by
  simp [exec, execNop, hb]

/-- Everything one step of a command can do: NOP's completion, an issue or rejection, or one stage of
the running command. -/
theorem exec_next_cases {i : Instr} {s t : State} (h : exec i s = .next t) :
    (s.busy = false ∧ hasOperands i = false ∧ t = completeAtStart s) ∨
    (s.busy = false ∧ hasOperands i = true ∧ t = issueOrReject i s) ∨
    (running i s = true ∧ ∃ st rest, s.latch.stages = st :: rest ∧ st ∈ stagesOf i ∧
      t = advance (stageEffect i st s)) := by
  cases hb : s.busy
  · cases ho : hasOperands i
    · refine Or.inl ⟨rfl, rfl, ?_⟩
      cases i <;> simp [hasOperands] at ho
      rw [exec_nop _ _ hb] at h; cases h; rfl
    · refine Or.inr (Or.inl ⟨rfl, rfl, ?_⟩)
      rw [exec_idle hb ho] at h; cases h; rfl
  · refine Or.inr (Or.inr ?_)
    have key : running i s = true ∧ ∃ st rest, s.latch.stages = st :: rest ∧ st ∈ stagesOf i := by
      cases i <;> simp only [exec, execNop, execGray, execLaplace, execSharpen, execPipeline, hb] at h
      · simp at h
      all_goals
        simp only [Bool.not_true, Bool.false_eq_true, if_false] at h
        split at h
        · exact nomatch h
        · next hr =>
          refine ⟨by simpa using hr, ?_⟩
          split at h <;> simp_all [stagesOf]
    obtain ⟨hr, st, rest, hs, hm⟩ := key
    refine ⟨hr, st, rest, hs, hm, ?_⟩
    rw [exec_running hr hs hm] at h; cases h; rfl

/-- A stage changes device memory, the engine and the draws only. -/
theorem stageEffect_frame (i : Instr) (st : Stage) (s : State) :
    SameStatus s (stageEffect i st s) ∧ SameRegisters s (stageEffect i st s) ∧
    (stageEffect i st s).latch = s.latch ∧ SameSurroundings s (stageEffect i st s) ∧
    (stageEffect i st s).raced = s.raced ∧ s.draws ≤ (stageEffect i st s).draws := by
  cases st <;> simp [stageEffect, SameStatus, SameRegisters, SameSurroundings]

/-- The write range of a stage (R125, R146, R172). -/
def stageRange (st : Stage) (l : Latch) : Range :=
  match st with
  | .gray => l.grayRange
  | .laplace => l.edgeRange
  | .sharpen => l.outRange

/-- A stage changes no byte outside its write range. -/
theorem read_stageEffect_outside {i : Instr} {st : Stage} {s : State} {a : Nat}
    (h : (stageRange st s.latch).has a = false) :
    (stageEffect i st s).mem.read a = s.mem.read a := by
  have h' : ¬ ((stageRange st s.latch).base ≤ a ∧
      a < (stageRange st s.latch).base + (stageRange st s.latch).len) := by
    rw [← Range.has_iff, h]; exact Bool.false_ne_true
  cases st
  · simp only [stageEffect, read_grayStage]; exact if_neg h'
  · exact read_laplaceStage_outside _ _ h
  · simp only [stageEffect, read_sharpenStage]; exact if_neg h'

/-- The write range of a command's stage is one of the command's write ranges. -/
theorem stageRange_mem_writeRanges {i : Instr} {st : Stage} (l : Latch) (h : st ∈ stagesOf i) :
    stageRange st l ∈ writeRanges i l := by
  cases i <;> cases st <;> simp_all [stagesOf, stageRange, writeRanges]

theorem writeRanges_subset_usedRanges (i : Instr) (l : Latch) {r : Range}
    (h : r ∈ writeRanges i l) : r ∈ usedRanges i l := by
  cases i <;> simp_all [writeRanges, usedRanges]

/-- The latched command of a running state: its write ranges. -/
theorem written_of_decode {l : Latch} {i : Instr} (h : decode l.cmd = .command i) :
    l.written = writeRanges i l := by simp [Latch.written, h]

theorem used_of_decode {l : Latch} {i : Instr} (h : decode l.cmd = .command i) :
    l.used = usedRanges i l := by simp [Latch.used, h]

/-- What the checks of R236 establish. -/
theorem checkOperands_noError {i : Instr} {l : Latch} {p : Platform}
    (h : checkOperands i l p = .noError) (ho : hasOperands i = true) :
    (0 < l.w ∧ 0 < l.h ∧ l.w ≤ p.maxWidth) ∧
    (∀ r ∈ usedRanges i l, r.base + r.len ≤ p.memSize) ∧
    (∀ q ∈ overlapPairs i l, q.1.meets q.2 = false) := by
  simp only [checkOperands, ho, Bool.not_true, Bool.false_eq_true, if_false] at h
  split at h
  · exact nomatch h
  · next hd =>
    split at h
    · exact nomatch h
    · next hr =>
      split at h
      · exact nomatch h
      · next hp =>
        refine ⟨?_, ?_, ?_⟩
        · simp [badDim] at hd; omega
        · intro r hm
          simp only [List.any_eq_true, not_exists, not_and, Range.fits] at hr
          simpa using hr r hm
        · intro q hm
          simp only [List.any_eq_true, not_exists, not_and] at hp
          simpa using hp q hm

/-- Two ranges that do not meet lie one after the other. -/
theorem Range.meets_eq_false (r q : Range) :
    r.meets q = false ↔ q.base + q.len ≤ r.base ∨ r.base + r.len ≤ q.base := by
  rw [← Bool.not_eq_true]
  simp only [Range.meets, Bool.and_eq_true, decide_eq_true_eq]
  omega

theorem hasOperands_of_mem {i : Instr} {st : Stage} (h : st ∈ stagesOf i) :
    hasOperands i = true := by
  cases i <;> simp_all [stagesOf, hasOperands]

/-- Membership of an address in a list of ranges. -/
theorem inRanges_iff (rs : List Range) (a : Nat) :
    inRanges rs a = true ↔ ∃ r ∈ rs, r.has a = true := by
  simp [inRanges, List.any_eq_true]

theorem inRanges_eq_false (rs : List Range) (a : Nat) :
    inRanges rs a = false ↔ ∀ r ∈ rs, r.has a = false := by
  simp [inRanges, List.any_eq_false]

@[simp] theorem inRanges_singleton (r : Range) (a : Nat) : inRanges [r] a = r.has a := by
  simp [inRanges]

/-! The sequencer -/

/-- The sequencer after the last stage of a command no host access has raced: the command ends. -/
theorem advance_last {s : State} {st : Stage} (hs : s.latch.stages = [st]) (hr : s.raced = false) :
    advance s = finish s := by
  simp [advance, hs, finishRaced, hr]

/-- The sequencer after the last stage of a raced command: its write ranges become draws and the
command ends. -/
theorem advance_last_raced {s : State} {st : Stage} (hs : s.latch.stages = [st])
    (hr : s.raced = true) : advance s = finish (spoil s.latch.written s) := by
  simp [advance, hs, finishRaced, hr]

/-- The sequencer after any other stage: the next one is the head of L.stages. -/
theorem advance_more {s : State} {st st' : Stage} {rest : List Stage}
    (hs : s.latch.stages = st :: st' :: rest) :
    advance s = { s with latch := { s.latch with stages := st' :: rest } } := by
  simp [advance, hs]

theorem advance_cases (s : State) :
    (advance s = finish s ∧ s.raced = false ∧ s.latch.stages.tail = []) ∨
    (advance s = finish (spoil s.latch.written s) ∧ s.raced = true ∧ s.latch.stages.tail = []) ∨
    (s.latch.stages.tail ≠ [] ∧
      advance s = { s with latch := { s.latch with stages := s.latch.stages.tail } }) := by
  cases h : s.latch.stages.tail with
  | nil =>
    cases hr : s.raced
    · exact Or.inl ⟨by simp [advance, h, finishRaced, hr], rfl, rfl⟩
    · exact Or.inr (Or.inl ⟨by simp [advance, h, finishRaced, hr], rfl, rfl⟩)
  | cons a l => exact Or.inr (Or.inr ⟨by simp, by simp [advance, h]⟩)

/-- What advancing the sequencer never changes. -/
theorem advance_frame (s : State) :
    SameRegisters s (advance s) ∧ (advance s).err = s.err ∧ (advance s).errCode = s.errCode ∧
    { (advance s).latch with stages := s.latch.stages } = s.latch ∧ SameSurroundings s (advance s) ∧
    (advance s).engine = s.engine ∧ s.draws ≤ (advance s).draws := by
  rcases advance_cases s with ⟨h, -, -⟩ | ⟨h, -, -⟩ | ⟨-, h⟩ <;> rw [h] <;>
    simp [SameRegisters, SameSurroundings, spoil]

/-- Advancing the sequencer changes no byte outside the latched command's write ranges. -/
theorem read_advance_outside {s : State} {a : Nat} (h : inRanges s.latch.written a = false) :
    (advance s).mem.read a = s.mem.read a := by
  rcases advance_cases s with ⟨h', -, -⟩ | ⟨h', -, -⟩ | ⟨-, h'⟩ <;> rw [h']
  · simp
  · rw [finish_mem, read_spoil_outside h]

/-! START -/

@[simp] theorem latchCommand_latch (s : State) :
    (latchCommand s).latch =
      { cmd := s.cmd, width := s.width, height := s.height, rgb := s.rgbAddr, gray := s.grayAddr,
        edge := s.edgeAddr, out := s.outAddr, stages := [] } := rfl

/-- The checks either issue the command or reject it. -/
theorem issueOrReject_cases (i : Instr) (s : State) :
    (checkOperands i s.latch s.platform = .noError ∧ issueOrReject i s = issueStages i s) ∨
    (∃ e, e ≠ .noError ∧ checkOperands i s.latch s.platform = e ∧
      issueOrReject i s = reject e s) := by
  cases h : checkOperands i s.latch s.platform <;> simp [issueOrReject, h]

/-- Everything a START can do. -/
theorem startAction_cases {s t : State} (h : startAction s = .next t) :
    (s.busy = true ∧ t = overrun s) ∨
    (s.busy = false ∧ ∃ why, decode s.cmd = .illegal why ∧ t = reject .illegalCmd (acceptStart s)) ∨
    (s.busy = false ∧ ∃ i, decode s.cmd = .command i ∧
      ((hasOperands i = false ∧ t = completeAtStart (acceptStart s)) ∨
       (checkOperands i (acceptStart s).latch s.platform = .noError ∧ hasOperands i = true ∧
          t = issueStages i (acceptStart s)) ∨
       (∃ e, e ≠ .noError ∧ checkOperands i (acceptStart s).latch s.platform = e ∧
          t = reject e (acceptStart s)))) := by
  cases hb : s.busy
  · have hlc : (acceptStart s).latch.cmd = s.cmd := rfl
    have hab : (acceptStart s).busy = false := hb
    simp only [startAction, hb, Bool.false_eq_true, if_false, hlc] at h
    cases hd : decode s.cmd with
    | illegal why => rw [hd] at h; cases h; exact Or.inr (Or.inl ⟨rfl, why, rfl, rfl⟩)
    | command i =>
      rw [hd] at h
      refine Or.inr (Or.inr ⟨rfl, i, rfl, ?_⟩)
      rcases exec_next_cases h with ⟨-, ho, rfl⟩ | ⟨-, ho, rfl⟩ | ⟨hr, -⟩
      · exact Or.inl ⟨ho, rfl⟩
      · rcases issueOrReject_cases i (acceptStart s) with ⟨h1, h2⟩ | ⟨e, h1, h2, h3⟩
        · exact Or.inr (Or.inl ⟨h1, ho, h2⟩)
        · exact Or.inr (Or.inr ⟨e, h1, h2, h3⟩)
      · exact absurd (running_busy hr) (by rw [hab]; exact Bool.false_ne_true)
  · simp only [startAction, hb, if_true] at h
    cases h; exact Or.inl ⟨rfl, rfl⟩

/-- A START always answers a next state. -/
theorem startAction_next (s : State) : ∃ t, startAction s = .next t := by
  cases hb : s.busy
  · have hlc : (acceptStart s).latch.cmd = s.cmd := rfl
    have hab : (acceptStart s).busy = false := hb
    simp only [startAction, hb, Bool.false_eq_true, if_false, hlc]
    cases hd : decode s.cmd with
    | illegal why => exact ⟨_, rfl⟩
    | command i =>
      cases ho : hasOperands i
      · cases i <;> simp [hasOperands] at ho
        exact ⟨_, exec_nop _ _ hab⟩
      · exact ⟨_, exec_idle hab ho⟩
  · exact ⟨overrun s, by simp [startAction, hb]⟩

/-! Register writes -/

/-- The state with other values in CMD, WIDTH, HEIGHT and the address registers. -/
def withConfig (s : State) (cmd : Word) (width height : BitVec 16) (rgb gray edge out : Word) :
    State :=
  { s with cmd := cmd, width := width, height := height, rgbAddr := rgb, grayAddr := gray,
           edgeAddr := edge, outAddr := out }

theorem regAt_ctrl {off : BitVec 8} (h : regAt off = some .ctrl) : off = 0x00#8 := by
  apply BitVec.eq_of_toNat_eq
  unfold regAt at h
  split at h <;> simp_all

theorem regAt_status {off : BitVec 8} (h : regAt off = some .status) : off = 0x04#8 := by
  apply BitVec.eq_of_toNat_eq
  unfold regAt at h
  split at h <;> simp_all

/-- Everything a RegWrite can do. -/
theorem regWrite_cases {size : BitVec 3} {off : BitVec 8} {v : Word} {s t : State}
    (h : regWrite size off v s = .next t) :
    t = s ∨
    (s.inReset = false ∧ off = 0x00#8 ∧ startAction { s with ie := v.getLsbD 1 } = .next t) ∨
    (s.inReset = false ∧ t = { s with ie := v.getLsbD 1 }) ∨
    (s.inReset = false ∧ off = 0x04#8 ∧ t = acknowledge v s) ∨
    (s.inReset = false ∧ ∃ c w hh r g e o, t = withConfig s c w hh r g e o) := by
  unfold regWrite at h
  split at h
  · cases h; exact Or.inl rfl
  · next hr =>
    have hres : s.inReset = false := by
      simp only [Bool.or_eq_true, not_or] at hr; simpa using hr.1
    split at h
    · next r hreg =>
      cases r <;> simp only [writeReg] at h
      · split at h
        · exact Or.inr (Or.inl ⟨hres, regAt_ctrl hreg, h⟩)
        · cases h; exact Or.inr (Or.inr (Or.inl ⟨hres, rfl⟩))
      · cases h; exact Or.inr (Or.inr (Or.inr (Or.inl ⟨hres, regAt_status hreg, rfl⟩)))
      all_goals
        cases h
        exact Or.inr (Or.inr (Or.inr (Or.inr ⟨hres, _, _, _, _, _, _, _, rfl⟩)))
    · cases h; exact Or.inl rfl

/-- A RegWrite always answers a next state. -/
theorem regWrite_next (size : BitVec 3) (off : BitVec 8) (v : Word) (s : State) :
    ∃ t, regWrite size off v s = .next t := by
  unfold regWrite
  split
  · exact ⟨_, rfl⟩
  · split
    · next r hreg =>
      cases r <;> simp only [writeReg]
      · split
        · exact startAction_next _
        · exact ⟨_, rfl⟩
      all_goals exact ⟨_, rfl⟩
    · exact ⟨_, rfl⟩

/-! The agents -/

theorem takeTurn_eq (s : State) :
    s.takeTurn = { s with turns := s.takeTurn.turns } := by
  unfold State.takeTurn; split <;> rfl

theorem takeTurn_fields (s : State) :
    ∃ ts, s.takeTurn = { s with turns := ts } := ⟨_, takeTurn_eq s⟩

theorem mover_block {s : State} (h : s.mover = some .block) : s.busy = true ∧ s.inReset = false := by
  unfold State.mover at h
  split at h <;> simp_all [State.blockReady]

theorem mover_host {s : State} (h : s.mover = some .host) : ∃ op rest, s.host = op :: rest := by
  cases hh : s.host with
  | nil => unfold State.mover at h; split at h <;> simp_all [State.hostReady]
  | cons op rest => exact ⟨op, rest, rfl⟩

/-- Everything a step can do, by the agent that moves. -/
theorem step_cases (s : State) :
    (s.mover = none ∧ step s = .next s) ∨
    (s.mover = some .host ∧ ∃ op rest ts, s.host = op :: rest ∧
      step s = performOp op { s with turns := ts, host := rest }) ∨
    (s.mover = some .block ∧ s.busy = true ∧ s.inReset = false ∧
      ∃ ts, step s = blockStep { s with turns := ts }) := by
  cases hm : s.mover with
  | none => exact Or.inl ⟨rfl, by simp [step, agentStep, hm]⟩
  | some a =>
    obtain ⟨ts, hts⟩ := takeTurn_fields s
    cases a with
    | host =>
      obtain ⟨op, rest, hh⟩ := mover_host hm
      refine Or.inr (Or.inl ⟨rfl, op, rest, ts, hh, ?_⟩)
      simp only [step, agentStep, hm, hts, hostStep, hh]
    | block =>
      obtain ⟨h1, h2⟩ := mover_block hm
      exact Or.inr (Or.inr ⟨rfl, h1, h2, ts, by simp only [step, agentStep, hm, hts]⟩)

/-- Everything a block step can do. -/
theorem blockStep_cases {s t : State} (hb : s.busy = true) (h : blockStep s = .next t) :
    ∃ i st rest, running i s = true ∧ s.latch.stages = st :: rest ∧ st ∈ stagesOf i ∧
      t = advance (stageEffect i st s) := by
  unfold blockStep at h
  split at h
  · exact nomatch h
  · next i hd =>
    rcases exec_next_cases h with ⟨h', -⟩ | ⟨h', -⟩ | ⟨hr, st, rest, h1, h2, h3⟩
    · rw [hb] at h'; exact nomatch h'
    · rw [hb] at h'; exact nomatch h'
    · exact ⟨i, st, rest, hr, h1, h2, h3⟩

end Sys2Proof.Machine
end

