-- ==== Sys2Proof/Laws/Engine.lean ====
section
/-!
SUPPORT. The line-buffered engine: its line buffers stay canonical and inside the columns scanned,
what an entry holds after a store, and how a scan splits.
-/

namespace Sys2Proof.Machine

/-- Both line buffers are canonical and list only entries below `n`. -/
def LinesOk (n : Nat) (e : Engine) : Prop :=
  (Memory.wf e.lb0.cells ∧ Memory.wf e.lb1.cells) ∧
  (∀ c ∈ e.lb0.cells, c.1 < n) ∧ (∀ c ∈ e.lb1.cells, c.1 < n)

theorem linesOk_unspecified (n k : Nat) : LinesOk n (Engine.unspecified k) := by
  simp [LinesOk, Engine.unspecified, Memory.wf]

theorem linesOk_take {n : Nat} {e : Engine} (h : LinesOk n e) (y : Nat) {x : Nat} (hx : x < n)
    (z : Byte) : LinesOk n (e.take y x z) := by
  obtain ⟨⟨h1, h2⟩, h3, h4⟩ := h
  refine ⟨⟨Memory.wf_write h1 _ _, Memory.wf_write h2 _ _⟩, ?_, ?_⟩ <;> intro c hc <;>
    rcases Memory.mem_write hc with rfl | hc
  · exact hx
  · exact h3 c hc
  · exact hx
  · exact h4 c hc

theorem linesOk_scan {n : Nat} (l : Latch) (m : Memory) (ps : List Pixel) (hps : ∀ p ∈ ps, p.2 < n)
    {e : Engine} (h : LinesOk n e) : LinesOk n (Engine.scan l m ps e).1 := by
  induction ps generalizing e with
  | nil => exact h
  | cons p ps ih =>
    simp only [List.mem_cons, forall_eq_or_imp] at hps
    exact ih hps.2 (linesOk_take h _ hps.1 _)

/-- A line-buffer entry after a store. -/
theorem LineBuffer.entry_store (lb : LineBuffer) (i j : Nat) (v : Byte) :
    (lb.store i v).entry j = if j = i then v else lb.entry j := by
  simp only [LineBuffer.entry, LineBuffer.store, Memory.find_write]
  split <;> simp

/-- A scan of two lists of pixels, one after the other. -/
theorem Engine.scan_append (l : Latch) (m : Memory) (ps qs : List Pixel) (e : Engine) :
    Engine.scan l m (ps ++ qs) e =
      ((Engine.scan l m qs (Engine.scan l m ps e).1).1,
       (Engine.scan l m ps e).2 ++ (Engine.scan l m qs (Engine.scan l m ps e).1).2) := by
  induction ps generalizing e with
  | nil => rfl
  | cons p ps ih => simp [Engine.scan, ih, List.append_assoc]

/-- Every row of the raster, in order. -/
theorem rasterPixels_succ (w h : Nat) :
    rasterPixels w (h + 1) = rasterPixels w h ++ (List.range w).map (fun x => (h, x)) := by
  simp [rasterPixels, List.range_succ]

end Sys2Proof.Machine
end

