-- ==== Sys2Proof/Laws/PerInstr.lean ====
section
/-!
SUPPORT. What holds of every command as syntax, one lemma per constructor: the row of
spec/opcode_table.json its word belongs to.
-/

namespace Sys2Proof.Laws

/-- The match value of the command's row in spec/opcode_table.json. -/
def EncodeFixed.matchValue : Instr → Word
  | .nop _ _ => 0x00000000#32
  | .gray _ _ => 0x00000001#32
  | .laplace _ _ => 0x00000002#32
  | .sharpen _ _ => 0x00000003#32
  | .pipeline _ _ => 0x00000004#32

/-- The word of a command, under the table's mask 0xFFFFFFCF, is its row's match value (R100). -/
def EncodeFixed.Statement (i : Instr) : Prop :=
  encode i &&& 0xFFFFFFCF#32 = EncodeFixed.matchValue i

theorem EncodeFixed.nop (bz rnd : Bool) : EncodeFixed.Statement (.nop bz rnd) := by
  cases bz <;> cases rnd <;> rfl

theorem EncodeFixed.gray (bz rnd : Bool) : EncodeFixed.Statement (.gray bz rnd) := by
  cases bz <;> cases rnd <;> rfl

theorem EncodeFixed.laplace (bz rnd : Bool) : EncodeFixed.Statement (.laplace bz rnd) := by
  cases bz <;> cases rnd <;> rfl

theorem EncodeFixed.sharpen (bz rnd : Bool) : EncodeFixed.Statement (.sharpen bz rnd) := by
  cases bz <;> cases rnd <;> rfl

theorem EncodeFixed.pipeline (bz rnd : Bool) : EncodeFixed.Statement (.pipeline bz rnd) := by
  cases bz <;> cases rnd <;> rfl

end Sys2Proof.Laws
end

