-- ==== Sys2Proof/Laws/Run.lean ====
section
/-!
SUPPORT. Running the machine step by step, and the block agent's step when no host operation comes
first.
-/

namespace Sys2Proof.Machine

/-- A run of no step answers the state it starts from. -/
@[simp] theorem run_zero (s : State) : Host.Core.run Sys2Proof.core 0 s = .next s := rfl

/-- A run goes on from the state its first step answers. -/
theorem run_succ {n : Nat} {s t : State} (h : step s = .next t) :
    Host.Core.run Sys2Proof.core (n + 1) s = Host.Core.run Sys2Proof.core n t := by
  have h' : Sys2Proof.core.step s = .next t := h
  simp only [Host.Core.run, h']

/-- Where the host cannot move, or the schedule is used up, the step of a running command is its
current stage, and the schedule stays. -/
theorem step_running {i : Instr} {s : State} {st : Stage} {rest : List Stage}
    (hh : s.hostReady = false ∨ s.turns = []) (hr : running i s = true) (hn : s.inReset = false)
    (hs : s.latch.stages = st :: rest) (hm : st ∈ stagesOf i) :
    step s = .next (advance (stageEffect i st s)) := by
  have hb := running_busy hr
  have hmv : s.mover = some .block := by
    unfold State.mover
    rcases hh with h | h
    · simp [h, State.blockReady, hb, hn]
    · cases hx : s.hostReady <;> simp [State.blockReady, hb, hn, h]
  have ht : s.takeTurn = s := by
    unfold State.takeTurn
    rcases hh with h | h
    · simp [h]
    · split
      · cases s; simp_all
      · rfl
  simp only [step, agentStep, hmv, ht, blockStep, ((running_iff i s).1 hr).2.1]
  exact exec_running hr hs hm

end Sys2Proof.Machine
end

