-- ==== Sys2Proof/Tests/Slice0.lean ====
section
/-!
SUPPORT. Small tests, their expected results taken from spec/95_test_vectors.md and the rules named
at each, and for every statement with hypotheses concrete states and operands that meet them.
-/

open Sys2Proof Sys2Proof.Machine

namespace Sys2Proof.Tests

/-! Checks on terms -/

/-- The notation's BZ and RND suffixes are refused where the command does not use them (R101). -/
theorem test_wellformed_refuses_unused_modifiers :
    (Instr.nop true false).wellFormed = false ∧ (Instr.nop false true).wellFormed = false ∧
    (Instr.gray true false).wellFormed = false ∧ (Instr.laplace false true).wellFormed = false ∧
    (Instr.sharpen true false).wellFormed = false ∧ (Instr.sharpen false true).wellFormed = false ∧
    (Instr.gray false true).wellFormed = true ∧ (Instr.pipeline true true).wellFormed = true := by
  decide

/-- MEM_SIZE is from 1 to 2^32 (R60), MAX_WIDTH at least 3 (R5). -/
theorem test_platform_wellformed :
    Platform.wellFormed { memSize := 0, maxWidth := 4096 } = false ∧
    Platform.wellFormed { memSize := 4294967297, maxWidth := 4096 } = false ∧
    Platform.wellFormed { memSize := 1, maxWidth := 2 } = false ∧
    Platform.wellFormed { memSize := 1, maxWidth := 3 } = true ∧
    Platform.atReset.wellFormed = true := by decide

/-! Decoding: each word is written out bit by bit from the pattern of R93,
`0000 0000 0000 0000 0000 0000 00RB 0ooo` -/

/-- R = 1, B = 1, ooo = 000 (V4: NOP ignores both). -/
theorem test_decode_nop :
    decode 0b00000000000000000000000000110000#32 = .command (.nop true true) := by decide

/-- R = 1, B = 0, ooo = 001. -/
theorem test_decode_gray :
    decode 0b00000000000000000000000000100001#32 = .command (.gray false true) := by decide

/-- R = 0, B = 1, ooo = 010. -/
theorem test_decode_laplace :
    decode 0b00000000000000000000000000010010#32 = .command (.laplace true false) := by decide

/-- R = 1, B = 1, ooo = 011. -/
theorem test_decode_sharpen :
    decode 0b00000000000000000000000000110011#32 = .command (.sharpen true true) := by decide

/-- R = 0, B = 1, ooo = 100. -/
theorem test_decode_pipeline :
    decode 0b00000000000000000000000000010100#32 = .command (.pipeline true false) := by decide

/-- V4: reserved opcodes 5 to 7, and each kind of reserved bit, even beside OP = NOP. -/
theorem test_decode_illegal :
    decode 0x5#32 = .illegal .reservedOp ∧ decode 0x6#32 = .illegal .reservedOp ∧
    decode 0x7#32 = .illegal .reservedOp ∧ decode 0x8#32 = .illegal .reservedBits ∧
    decode 0x9#32 = .illegal .reservedBits ∧ decode 0x40#32 = .illegal .reservedBits ∧
    decode 0x41#32 = .illegal .reservedBits ∧ decode 0x80000000#32 = .illegal .reservedBits := by
  decide

/-- The bytes of a command word in lane order, the lowest first (R68), with a byte left over. -/
theorem test_decode_bytes :
    decodeBytes [0x21#8, 0x00#8, 0x00#8, 0x00#8, 0x77#8] = some (.gray false true, [0x77#8]) ∧
    decodeBytes [0x21#8, 0x00#8, 0x00#8] = none ∧
    decodeTableWord 32 0x34 = some (.pipeline true true) ∧ decodeTableWord 32 0x7 = none := by
  decide

/-! A small machine -/

/-- What a field of the next state holds; nothing where the machine stops. -/
def fieldOf {α : Type} (f : State → α) : Outcome → Option α
  | .next t => some (f t)
  | _ => none

/-- Idle, 256 bytes of memory, a 3×3 raster: RGB at 0x00, GRAY at 0x30, EDGE at 0x40, OUT at 0x50. -/
def idle (c : Word) : State :=
  { State.reset with
    platform := { memSize := 256, maxWidth := 4096 }, cmd := c, width := 3#16, height := 3#16,
    rgbAddr := 0x00#32, grayAddr := 0x30#32, edgeAddr := 0x40#32, outAddr := 0x50#32 }

/-- The same with the command issued and the given stages left. -/
def busyWith (c : Word) (stages : List Stage) : State :=
  { idle c with
    busy := true
    latch := { cmd := c, width := 3#16, height := 3#16, rgb := 0x00#32, gray := 0x30#32,
               edge := 0x40#32, out := 0x50#32, stages := stages } }

/-- The memory that holds the bytes from an address on. -/
def bytesAt : Nat → List Byte → Memory
  | _, [] => []
  | a, b :: rest => (a, b) :: bytesAt (a + 1) rest

/-- The host's next operation. -/
def hostNext (op : HostOp) (s : State) : State := { s with host := [op] }

/-- The RegWrite of CTRL with the given word. -/
def ctrlWrite (v : Word) : HostOp := .regWrite 4#3 0x00#8 v

/-! One step each -/

/-- V7: a START after reset runs the reset command word, a NOP: STATUS 0x00000002 (R205). -/
theorem test_nop_start :
    fieldOf State.statusWord (step (State.reset.withFetchWord 32 0x00000000)) =
      some 0x00000002#32 := by decide

/-- Fetching works for every row: the first step after reset issues GRAY, LAPLACE, SHARPEN and
PIPELINE, which the reset operands (W = 0) make BAD_DIM (R233, V5f). -/
theorem test_fetch_rows :
    [1, 2, 3, 4].map (fun w =>
      fieldOf State.statusWord (step (State.reset.withFetchWord 32 w))) =
      [some 0x26#32, some 0x26#32, some 0x26#32, some 0x26#32] := by decide

/-- The clamp of R7 at the ends of its cases and of the values a stage gives it (R148, R171). -/
theorem test_clamp :
    [-1020, -1, 0, 1, 254, 255, 256, 510, 1020].map clampByte =
      [0#8, 0#8, 0#8, 1#8, 254#8, 255#8, 255#8, 255#8, 255#8] := by decide

/-- V1: truncation and rounding, an exact tie (0, 0, 250) and the largest sum below white. -/
theorem test_gray_luma :
    luma false 0#8 255#8 0#8 = 149#8 ∧ luma true 0#8 255#8 0#8 = 150#8 ∧
    luma false 0#8 0#8 250#8 = 28#8 ∧ luma true 0#8 0#8 250#8 = 29#8 ∧
    luma false 255#8 255#8 254#8 = 254#8 ∧ luma false 8#8 80#8 32#8 = 53#8 ∧
    luma false 0#8 72#8 24#8 = 45#8 := by decide

/-- P3's raster (255,0,0) (0,255,0) (0,0,255) (255,255,255) as the first four pixels: GRAY 4C 95 1D
FF. -/
theorem test_gray_step :
    fieldOf (fun t => ([0x30, 0x31, 0x32, 0x33].map t.mem.read, t.statusWord))
      (step { busyWith 0x1#32 [.gray] with
        mem := bytesAt 0 [0xFF#8, 0#8, 0#8, 0#8, 0xFF#8, 0#8, 0#8, 0#8, 0xFF#8, 0xFF#8, 0xFF#8,
                          0xFF#8] }) =
      some ([0x4C#8, 0x95#8, 0x1D#8, 0xFF#8], 0x02#32) := by decide

/-- The GRAY raster of V2a, with EDGE prefilled with 0xAA. -/
def v2a : Memory :=
  bytesAt 0x30 [9#8, 9#8, 9#8, 9#8, 0x3F#8, 9#8, 9#8, 9#8, 9#8] ++
    bytesAt 0x40 (List.replicate 9 0xAA#8)

/-- V2a: LAPLACE on 3×3, the input border taken as 0, the output border left. -/
theorem test_laplace_step_keeps_border :
    fieldOf (fun t => (List.range 9).map (fun i => t.mem.read (0x40 + i)))
      (step { busyWith 0x2#32 [.laplace] with mem := v2a }) =
      some [0xAA#8, 0xAA#8, 0xAA#8, 0xAA#8, 0xFC#8, 0xAA#8, 0xAA#8, 0xAA#8, 0xAA#8] := by decide

/-- V2c's interior filter values on the 4×4 raster: f(1,1) = -10, f(2,1) = 30, f(1,2) = 70,
f(2,2) = 110. -/
theorem test_laplace_values :
    let l : Latch := { Latch.reset with width := 4#16, height := 4#16 }
    let m : Memory := bytesAt 0
      [0xC8#8, 0xC8#8, 0xC8#8, 0xC8#8, 0xC8#8, 0x0A#8, 0x14#8, 0xC8#8, 0xC8#8, 0x1E#8, 0x28#8,
       0xC8#8, 0xC8#8, 0xC8#8, 0xC8#8, 0xC8#8]
    filterValue l m 1 1 = -10 ∧ filterValue l m 1 2 = 30 ∧ filterValue l m 2 1 = 70 ∧
    filterValue l m 2 2 = 110 := by decide

/-- R172's example and V3's 128 + 128: a sum above 255 clamps. -/
theorem test_sharpen_step :
    fieldOf (fun t => (List.range 6).map (fun i => t.mem.read (0x50 + i)))
      (step { busyWith 0x3#32 [.sharpen] with
        mem := bytesAt 0x30 [0#8, 100#8, 200#8, 255#8, 128#8, 128#8] ++
               bytesAt 0x40 [0#8, 100#8, 100#8, 255#8, 127#8, 128#8] }) =
      some [0#8, 200#8, 255#8, 255#8, 255#8, 255#8] := by decide

/-- V5ac and P1: PIPELINE.BZ is accepted, STATUS 0x101, then 0x201 after the GRAY step. -/
theorem test_pipeline_steps :
    fieldOf State.statusWord (step (hostNext (ctrlWrite 1#32) (idle 0x14#32))) = some 0x101#32 ∧
    fieldOf State.statusWord (step (busyWith 0x14#32 [.gray, .laplace, .sharpen])) =
      some 0x201#32 := by decide

/-- V6: a START while BUSY is an OVERRUN, STATUS 0x155; the step of the command then gives 0x56. -/
theorem test_overrun :
    fieldOf State.statusWord (regWrite 4#3 0x00#8 1#32 (busyWith 0x1#32 [.gray])) =
      some 0x155#32 ∧
    fieldOf State.statusWord (blockStep (overrun (busyWith 0x1#32 [.gray]))) = some 0x56#32 := by
  decide

/-- V5b, V5o, V5p: ILLEGAL_CMD before BAD_DIM before RANGE before OVERLAP. -/
theorem test_error_priority :
    fieldOf State.statusWord (startAction { idle 0x7#32 with width := 0#16 }) = some 0x16#32 ∧
    fieldOf State.statusWord (startAction { idle 0x1#32 with width := 0#16, rgbAddr := 0x1000#32 }) =
      some 0x26#32 ∧
    fieldOf State.statusWord
      (startAction { idle 0x1#32 with rgbAddr := 0xF0#32, grayAddr := 0xF0#32 }) = some 0x36#32 ∧
    fieldOf State.statusWord (startAction { idle 0x1#32 with grayAddr := 0x1A#32 }) =
      some 0x46#32 := by decide

/-- V7: WR WIDTH, 0x12345678 reads back 0x00005678; WR CTRL, 0xFFFFFFFE stores IE only. -/
theorem test_register_access :
    fieldOf (regRead 4#3 0x0C#8) (regWrite 4#3 0x0C#8 0x12345678#32 State.reset) =
      some 0x00005678#32 ∧
    fieldOf (fun t => (regRead 4#3 0x00#8 t, t.statusWord))
      (regWrite 4#3 0x00#8 0xFFFFFFFE#32 State.reset) = some (0x2#32, 0x0#32) ∧
    fieldOf State.statusWord (regWrite 4#3 0x04#8 0x2#32 (reject .illegalCmd State.reset)) =
      some 0x14#32 := by decide

/-- P4: with IE = 1 a rejected START raises irq at once, STATUS 0x416. -/
theorem test_irq_on_rejection :
    fieldOf State.statusWord (regWrite 4#3 0x00#8 3#32 (idle 0x6#32)) = some 0x416#32 := by decide

/-- R102 and R103: the transactions of `RUN PIPELINE.BZ` in P1. -/
theorem test_run_transactions :
    (runWord 0x14#32).map HostOp.transaction =
      [some { kind := 0#2, place := 0x08, data := some 0x14 },
       some { kind := 0#2, place := 0x00, data := some 0x1 }] := by decide

/-! Witnesses: for each statement with hypotheses, states and operands that meet them together. -/

/-- DecodeFollowsMaskTable, a word under each of the six clauses. -/
theorem test_witness_mask_table :
    0x30#32 &&& 0xFFFFFFCF#32 = 0#32 ∧ 0x31#32 &&& 0xFFFFFFCF#32 = 1#32 ∧
    0x22#32 &&& 0xFFFFFFCF#32 = 2#32 ∧ 0x13#32 &&& 0xFFFFFFCF#32 = 3#32 ∧
    0x34#32 &&& 0xFFFFFFCF#32 = 4#32 ∧ 4#32 < 0x35#32 &&& 0xFFFFFFCF#32 ∧
    4#32 < 0xFFFFFFFF#32 &&& 0xFFFFFFCF#32 := by decide

/-- StartStepRunsDecodedCommand and StartIsNeverMissed: a START of a command and of an illegal word. -/
theorem test_witness_start_step :
    (let s := hostNext (ctrlWrite 1#32) (idle 0x14#32)
     s.busy = false ∧ s.inReset = false ∧ s.host = [.regWrite 4#3 0x00#8 1#32] ∧
     (1#32).getLsbD 0 = true ∧ decode s.cmd = .command (.pipeline true false)) ∧
    decode (idle 0x5#32).cmd = .illegal .reservedOp := by decide

/-- BlockStepRunsLatchedCommand and BlockStepStaysInWriteRanges. -/
theorem test_witness_block_step :
    let s := busyWith 0x1#32 [.gray]
    s.mover = some .block ∧ decode s.latch.cmd = .command (.gray false false) ∧
    ∃ t, step s = .next t := ⟨by decide, by decide, _, rfl⟩

/-- FetchedWordRunsNext. -/
theorem test_witness_fetched_word : decodeTableWord 32 0x12 = some (.laplace true false) := by decide

/-- ResetAbandonsCommand, with a command running and with none. -/
theorem test_witness_reset_event :
    (let s := { hostNext (.setReset true) (busyWith 0x1#32 [.gray]) with turns := [.host] }
     s.host = [.setReset true] ∧ s.mover = some .host ∧ s.busy = true ∧
     inRanges s.latch.written 0x30 = true ∧ inRanges s.latch.written 0x39 = false) ∧
    (let s := hostNext (.setReset true) (idle 0x1#32)
     s.host = [.setReset true] ∧ s.mover = some .host ∧ s.busy = false) := by decide

/-- HeldInReset. -/
theorem test_witness_in_reset : (assertReset (busyWith 0x1#32 [.gray])).inReset = true := rfl

/-- StartWhileBusyIsOverrun, with the highest and the lowest CTRL word that starts. -/
theorem test_witness_overrun :
    let s := busyWith 0x1#32 [.gray]
    s.busy = true ∧ s.inReset = false ∧ (1#32).getLsbD 0 = true ∧
    (0xFFFFFFFF#32).getLsbD 0 = true := by decide

/-- ChecksInOrder: latched operands under each clause, the ranges one byte to either side of
MEM_SIZE and of each other. -/
theorem test_witness_checks :
    let p : Platform := { memSize := 256, maxWidth := 4096 }
    let l := (busyWith 0x1#32 [.gray]).latch
    decode { l with cmd := 0x8#32 }.cmd = .illegal .reservedBits ∧
    decode { l with cmd := 0x0#32 }.cmd = .command (.nop false false) ∧
    decode l.cmd = .command (.gray false false) ∧ hasOperands (.gray false false) = true ∧
    { l with width := 0#16 }.w = 0 ∧ { l with height := 0#16 }.h = 0 ∧
    p.maxWidth < { l with width := 4097#16 }.w ∧
    ¬ (l.w = 0 ∨ l.h = 0 ∨ p.maxWidth < l.w) ∧
    (∃ r ∈ usedRanges (.gray false false) { l with gray := 0xF8#32 }, p.memSize < r.base + r.len) ∧
    (∀ r ∈ usedRanges (.gray false false) { l with gray := 0xF7#32 }, r.base + r.len ≤ p.memSize) ∧
    (∀ r ∈ usedRanges (.gray false false) { l with gray := 0x1A#32 }, r.base + r.len ≤ p.memSize) ∧
    (∃ q ∈ overlapPairs (.gray false false) { l with gray := 0x1A#32 },
      q.1.base < q.2.base + q.2.len ∧ q.2.base < q.1.base + q.1.len) ∧
    (∀ q ∈ overlapPairs (.gray false false) { l with gray := 0x1B#32 },
      q.2.base + q.2.len ≤ q.1.base ∨ q.1.base + q.1.len ≤ q.2.base) := by decide

/-- RejectedStart, with each error code a check gives. -/
theorem test_witness_rejected :
    (idle 0x5#32).busy = false ∧
    checkLatch (acceptStart (idle 0x5#32)).latch (idle 0x5#32).platform = .illegalCmd ∧
    checkLatch (acceptStart { idle 0x1#32 with height := 0#16 }).latch (idle 0x1#32).platform =
      .badDim ∧
    checkLatch (acceptStart { idle 0x1#32 with grayAddr := 0xF8#32 }).latch (idle 0x1#32).platform =
      .range ∧
    checkLatch (acceptStart { idle 0x2#32 with edgeAddr := 0x38#32 }).latch (idle 0x1#32).platform =
      .overlap := by decide

/-- AcceptedStartIssues, IdleExecIssues and PipelineFromStartToDone, for each command with stages. -/
theorem test_witness_accepted :
    [Instr.gray false false, .laplace true false, .sharpen false false, .pipeline true true].all
      (fun i =>
        let s := hostNext (ctrlWrite 3#32) (idle (encode i))
        !s.busy && !s.inReset && decide (decode s.cmd = .command i) && hasOperands i &&
        decide (s.host = [.regWrite 4#3 0x00#8 3#32]) && (3#32).getLsbD 0 &&
        decide (checkOperands i (acceptStart s).latch s.platform = .noError) &&
        decide (checkOperands i { s with latch := (acceptStart s).latch }.latch s.platform =
          .noError)) = true := by decide

/-- NopCompletesAtStart, with W = H = 0 (V5e). -/
theorem test_witness_nop :
    State.reset.busy = false ∧ decode State.reset.cmd = .command (.nop false false) := by decide

/-- StartIsNeverMissed: its steps, one of each agent, from a state with BUSY or DONE set. -/
theorem test_witness_never_missed :
    (∃ t, startAction (idle 0x1#32) = .next t) ∧
    (let s := busyWith 0x1#32 [.gray]
     s.busy = true ∧ s.mover = some .block ∧ ∃ t, step s = .next t) ∧
    (let s := { hostNext (.regWrite 4#3 0x04#8 4#32) (idle 0x1#32) with done := true }
     s.done = true ∧ s.mover = some .host ∧
     HostOp.clearsDone (.regWrite 4#3 0x04#8 4#32) = false ∧ ∃ t, step s = .next t) :=
  ⟨⟨_, rfl⟩, ⟨by decide, by decide, _, rfl⟩, by decide, by decide, by decide, _, rfl⟩

/-- GrayCompletes, LaplaceCompletes, SharpenCompletes and the three clauses of
PipelineStagesInOrder. -/
theorem test_witness_running :
    running (.gray false true) (busyWith 0x21#32 [.gray]) = true ∧
    running (.laplace true false) (busyWith 0x12#32 [.laplace]) = true ∧
    running (.sharpen false false) (busyWith 0x3#32 [.sharpen]) = true ∧
    running (.pipeline true true) (busyWith 0x34#32 [.gray, .laplace, .sharpen]) = true ∧
    running (.pipeline true true) (busyWith 0x34#32 [.laplace, .sharpen]) = true ∧
    running (.pipeline true true) (busyWith 0x34#32 [.sharpen]) = true ∧
    (busyWith 0x34#32 [.sharpen]).raced = false := by decide

/-- RacedCommandEndsInDraws. -/
theorem test_witness_raced :
    let s := { busyWith 0x34#32 [.sharpen] with raced := true }
    running (.pipeline true true) s = true ∧ s.latch.stages = [.sharpen] ∧
    [Stage.sharpen] <:+ stagesOf (.pipeline true true) ∧ s.raced = true := by decide

/-- PipelineEqualsThreeCommands. -/
theorem test_witness_quiet :
    Quiet (idle 0x0#32) ∧
    checkOperands (.pipeline true true) (acceptStart (idle 0x0#32)).latch (idle 0x0#32).platform =
      .noError := ⟨⟨rfl, rfl, rfl, rfl⟩, by decide⟩

/-- A running PIPELINE, with a host that reads and writes inside memory, meets the invariant. -/
theorem test_witness_invariant :
    let s := { busyWith 0x34#32 [.laplace, .sharpen] with
               mem := [(0x10, 1#8)], host := [.memRead 0xFF, .memWrite 0xFF 7#8] }
    Inv s ∧ HostInMemory s ∧ s.busy = true ∧ s.turns = [] ∧ ∃ t, step s = .next t := by
  refine ⟨?_, ?_, rfl, rfl, _, rfl⟩
  · constructor
    · decide
    · decide
    · decide
    · decide
    · decide
    · exact fun _ => ⟨.pipeline true true, by decide, by decide, by decide⟩
    · decide
    · decide
    · decide
    · decide
    · decide
  · intro op h
    simp only [List.mem_cons, List.not_mem_nil, or_false] at h
    rcases h with rfl | rfl <;> exact (by decide : (0xFF : Nat) < 256)

/-- HostStepLeavesMemory: a START, a register read and a memory read. -/
theorem test_witness_host_step :
    [ctrlWrite 1#32, .regRead 4#3 0x04#8, .memRead 0x20].all
      (fun op => decide ((hostNext op (idle 0x1#32)).mover = some .host) && !op.touchesMemory) =
      true ∧
    ∃ t, step (hostNext (ctrlWrite 1#32) (idle 0x1#32)) = .next t := ⟨by decide, _, rfl⟩

/-- ConfigWriteChangesOnlyRegister, CtrlHoldsOnlyIe (both clauses), StatusWriteAcknowledges,
StatusFields, IrqIsLevel and RegisterMap, with a command running. -/
theorem test_witness_registers :
    (busyWith 0x1#32 [.gray]).inReset = false ∧ (0xFFFFFFFE#32).getLsbD 0 = false ∧
    (let s := { busyWith 0x1#32 [.gray] with ie := true, err := true, errCode := .overrun }
     s.inReset = false ∧ s.irq = true) := by decide

/-- StatusFields: each error code and each stage, in states that meet its clause. -/
theorem test_witness_status_codes :
    [ErrCode.noError, .illegalCmd, .badDim, .range, .overlap, .overrun].map
      (fun e => (regRead 4#3 0x04#8 { idle 0x0#32 with errCode := e }).extractLsb' 4 4) =
      [0#4, 1#4, 2#4, 3#4, 4#4, 5#4] ∧
    [Stage.gray, .laplace, .sharpen].map
      (fun st => ((busyWith 0x34#32 [st]).busy, (busyWith 0x34#32 [st]).latch.stages.head?,
        (regRead 4#3 0x04#8 (busyWith 0x34#32 [st])).extractLsb' 8 2)) =
      [(true, some .gray, 1#2), (true, some .laplace, 2#2), (true, some .sharpen, 3#2)] ∧
    (idle 0x34#32).busy = false ∧ (idle 0x34#32).inReset = false := by decide

/-- NarrowOrMisalignedAccess and RegisterMap, at the ends of their ranges. -/
theorem test_witness_offsets :
    (1#3 ≠ 4#3 ∨ (0x00#8).toNat % 4 ≠ 0) ∧ (4#3 ≠ 4#3 ∨ (0x02#8).toNat % 4 ≠ 0) ∧
    0x24 ≤ (0x24#8).toNat ∧ 0x24 ≤ (0xFC#8).toNat ∧ 0x24 ≤ (0xFF#8).toNat := by decide

/-- HostMemoryReadsBack, HostAccessToBuffersRaces (its three clauses, at the last byte of the write
range, the first byte of the read range and the byte after it) and AccessPastMemoryFaults. -/
theorem test_witness_host_memory :
    let s := busyWith 0x1#32 [.gray]
    0xFF < s.platform.memSize ∧ s.busy = true ∧ (idle 0x1#32).busy = false ∧
    s.inReset = false ∧ (idle 0x1#32).inReset = false ∧
    inRanges s.latch.written 0x38 = true ∧ inRanges s.latch.used 0x00 = true ∧
    inRanges s.latch.used 0x1B = false ∧ inRanges s.latch.written 0x39 = false ∧
    s.platform.memSize ≤ 0x100 := by decide

/-- A 5×5 raster at address 0 of every byte 0x0A (T3). -/
def flat : Memory := bytesAt 0 (List.replicate 25 0x0A#8)

/-- The latched dimensions of a 5×5 raster. -/
def five : Latch := { Latch.reset with width := 5#16, height := 5#16 }

/-- FilterIsFivePointStencil, FilterValueBounds and FlatFieldFilter, at an interior corner and at the
centre. -/
theorem test_witness_flat_field :
    (∀ y' x', onBorder five.w five.h (y', x') = false → y' < five.h → x' < five.w →
      flat.read (five.gray.toNat + y' * five.w + x') = 0x0A#8) ∧
    1 ≤ 1 ∧ 1 + 1 < five.h ∧ 1 + 1 < five.w ∧ 3 + 1 < five.h ∧ 3 + 1 < five.w := by
  have h : ∀ y' < 5, ∀ x' < 5, flat.read (0 + y' * 5 + x') = 0x0A#8 := by decide
  exact ⟨fun y' x' _ hy hx => h y' hy x' hx, by decide⟩

/-- FilterReadsFiveSamples: two rasters that differ at a diagonal neighbour of (1, 1). -/
theorem test_witness_five_samples :
    1 + 1 < five.h ∧ 1 + 1 < five.w ∧ flat.read 12 ≠ (flat.write 12 0xFF#8).read 12 ∧
    ∀ p ∈ [(1, 1), (1 - 1, 1), (1 + 1, 1), (1, 1 - 1), (1, 1 + 1)],
      flat.read (five.gray.toNat + p.1 * five.w + p.2) =
        (flat.write 12 0xFF#8).read (five.gray.toNat + p.1 * five.w + p.2) := by decide

/-- EdgeCommutesWithFlips: the 2×2 interior raster V2c, its rows reversed, its columns reversed. -/
theorem test_witness_flips :
    let l : Latch := { Latch.reset with width := 4#16, height := 4#16 }
    let m : Memory := bytesAt 4 [0#8, 10#8, 20#8, 0#8, 0#8, 30#8, 40#8, 0#8]
    let rows : Memory := bytesAt 4 [0#8, 30#8, 40#8, 0#8, 0#8, 10#8, 20#8, 0#8]
    let columns : Memory := bytesAt 4 [0#8, 20#8, 10#8, 0#8, 0#8, 40#8, 30#8, 0#8]
    let all := bytesAt 0 (List.replicate 4 0#8)
    let low := bytesAt 12 (List.replicate 4 0#8)
    (∀ y x, y < l.h → x < l.w →
      Memory.read (all ++ rows ++ low) (l.gray.toNat + y * l.w + x) =
        Memory.read (all ++ m ++ low) (l.gray.toNat + (l.h - 1 - y) * l.w + x)) ∧
    (∀ y x, y < l.h → x < l.w →
      Memory.read (all ++ columns ++ low) (l.gray.toNat + y * l.w + x) =
        Memory.read (all ++ m ++ low) (l.gray.toNat + y * l.w + (l.w - 1 - x))) ∧
    1 + 1 < l.h ∧ 1 + 1 < l.w := by
  intro l m rows columns all low
  have h : ∀ y < 4, ∀ x < 4,
      Memory.read (all ++ rows ++ low) (0 + y * 4 + x) =
        Memory.read (all ++ m ++ low) (0 + (4 - 1 - y) * 4 + x) ∧
      Memory.read (all ++ columns ++ low) (0 + y * 4 + x) =
        Memory.read (all ++ m ++ low) (0 + y * 4 + (4 - 1 - x)) := by decide
  exact ⟨fun y x hy hx => (h y hy x hx).1, fun y x hy hx => (h y hy x hx).2, by decide⟩

/-- SmallRasterHasNoInterior: V2f, W = 2 and H = 5, and V2h, W = H = 1. -/
theorem test_witness_small_raster :
    let small := fun (w h : BitVec 16) (c : Word) =>
      let s := busyWith c [.laplace]
      { s with latch := { s.latch with width := w, height := h } }
    running (.laplace false false) (small 2#16 5#16 0x2#32) = true ∧
    (small 2#16 5#16 0x2#32).latch.w < 3 ∧ (small 2#16 5#16 0x2#32).latch.stages = [.laplace] ∧
    (small 2#16 5#16 0x2#32).raced = false ∧
    running (.laplace true false) (small 1#16 1#16 0x12#32) = true ∧
    (small 1#16 1#16 0x12#32).latch.h < 3 := by decide

/-- ZeroEdgeGivesOriginal (T5). -/
theorem test_witness_zero_edge :
    let s := { busyWith 0x3#32 [.sharpen] with mem := bytesAt 0x40 (List.replicate 9 0#8) }
    running (.sharpen false false) s = true ∧ s.latch.stages = [.sharpen] ∧ s.raced = false ∧
    ∀ i, i < s.latch.pixels → s.mem.read (s.latch.edge.toNat + i) = 0#8 := by
  have h : ∀ i < 9, Memory.read (bytesAt 0x40 (List.replicate 9 0#8)) (0x40 + i) = 0#8 := by decide
  exact ⟨by decide, rfl, rfl, h⟩

/-- StageOutputDependsOnInputOnly: two memories that agree from 0x00 to 0x48, so on RGB, GRAY and EDGE,
and differ in OUT. -/
theorem test_witness_same_inputs :
    let inputs := bytesAt 0 (List.replicate 0x49 5#8)
    let s := { busyWith 0x34#32 [.gray, .laplace, .sharpen] with mem := inputs }
    let u := { s with mem := inputs ++ [(0x50, 1#8)] }
    u.latch = s.latch ∧
    (∀ a, s.latch.rgbRange.has a = true → u.mem.read a = s.mem.read a) ∧
    (∀ a, s.latch.grayRange.has a = true → u.mem.read a = s.mem.read a) ∧
    (∀ y x, y < s.latch.h → x < s.latch.w → onBorder s.latch.w s.latch.h (y, x) = true →
      u.mem.read (s.latch.edge.toNat + y * s.latch.w + x) =
        s.mem.read (s.latch.edge.toNat + y * s.latch.w + x)) ∧
    (∀ a, s.latch.grayRange.has a = true ∨ s.latch.edgeRange.has a = true →
      u.mem.read a = s.mem.read a) := by
  intro inputs s u
  have h : ∀ a < 0x49, u.mem.read a = s.mem.read a := by decide
  have hr : ∀ (b n a : Nat), b + n ≤ 0x49 → Range.has { base := b, len := n } a = true →
      u.mem.read a = s.mem.read a := by
    intro b n a hb ha
    simp only [Range.has, Bool.and_eq_true, decide_eq_true_eq] at ha
    exact h a (by omega)
  refine ⟨rfl, fun a ha => hr 0 27 a (by decide) ha, fun a ha => hr 0x30 9 a (by decide) ha, ?_, ?_⟩
  · intro y x hy hx _
    have hy' : y < 3 := hy
    have hx' : x < 3 := hx
    exact h _ (show 0x40 + y * 3 + x < 0x49 by omega)
  · exact fun a ha => ha.elim (fun ha => hr 0x30 9 a (by decide) ha)
      (fun ha => hr 0x40 9 a (by decide) ha)

end Sys2Proof.Tests
end

section
/-!
The clamp of R7: what `clampByte` stores, one lemma per case of the rule, and O56 from the three.
-/

namespace Sys2Proof.Machine

theorem clampByte_of_neg {v : Int} (hv : v < 0) : clampByte v = 0#8 := if_pos hv

theorem clampByte_of_gt {v : Int} (hv : 255 < v) : clampByte v = 255#8 := by
  have hnonneg : ¬ v < 0 := by omega
  simp [clampByte, hnonneg, hv]

/-- A value of the sample range has no bits above the low eight, so storing it loses nothing. -/
theorem clampByte_toNat_of_inRange {v : Int} (hlo : 0 ≤ v) (hhi : v ≤ 255) :
    ((clampByte v).toNat : Int) = v := by
  have hstored : clampByte v = BitVec.ofInt 8 v := by
    simp [clampByte, not_lt.mpr hlo, not_lt.mpr hhi]
  rw [hstored, BitVec.toNat_ofInt]
  omega

/-- Settles O56, by the three cases of R7: below 0, in the sample range, above 255. -/
theorem clampSaturates : Obligations.ClampSaturates := by
  intro v
  by_cases hneg : v < 0
  · rw [clampByte_of_neg hneg, max_eq_left hneg.le]
    decide
  by_cases hgt : 255 < v
  · rw [clampByte_of_gt hgt, max_eq_right (not_lt.mp hneg), min_eq_left hgt.le]
    decide
  · have hlo : 0 ≤ v := not_lt.mp hneg
    have hhi : v ≤ 255 := not_lt.mp hgt
    rw [clampByte_toNat_of_inRange hlo hhi, max_eq_right hlo, min_eq_right hhi]

end Sys2Proof.Machine
end

section
/-!
The invariant of every reachable state (O28, O29): one lemma per operation that a step can perform,
each naming only the clauses of `Inv` the operation touches, then the step by the agent that moves.
-/

namespace Sys2Proof.Machine

variable {s t : State}

/-- Settles O28: at reset nothing is written, nothing runs, and no flag is set. -/
theorem resetMeetsInvariant : Obligations.ResetMeetsInvariant where
  memCanonical := wf_reset
  memInside := by simp [State.reset]
  linesCanonical := ⟨.nil, .nil⟩
  linesInside := by simp [State.reset, Engine.reset]
  busyNotDone := fun _ => rfl
  busyRuns := by simp [State.reset]
  idleNoStage := fun _ => rfl
  errCodeWithErr := by simp [State.reset]
  busyErrOverrun := by simp [State.reset]
  racedBusy := by simp [State.reset]
  resetIdle := fun _ => ⟨rfl, rfl, rfl, rfl⟩

/-! Fields the invariant does not read -/

theorem Inv.withHostSide (h : Inv s) (ops : List HostOp) (ts : List Agent) :
    Inv { s with host := ops, turns := ts } := { h with }

theorem Inv.withConfig (h : Inv s) (c : Word) (width height : BitVec 16) (r g e o : Word) :
    Inv (withConfig s c width height r g e o) := { h with }

theorem Inv.addReply (h : Inv s) (r : Reply) : Inv (addReply r s) := { h with }

theorem Inv.withDraws (h : Inv s) (n : Nat) : Inv { s with draws := n } := { h with }

/-! Device memory -/

/-- Byte writes inside device memory keep the invariant. -/
theorem Inv.writeAll (h : Inv s) {cs : List Host.Cell} (hcs : ∀ c ∈ cs, c.1 < s.platform.memSize) :
    Inv { s with mem := s.mem.writeAll cs } :=
  { h with
    memCanonical := Memory.wf_writeAll h.memCanonical cs
    memInside := Memory.inside_writeAll h.memInside cs hcs }

/-- A command whose checks hold writes no address outside device memory (R234). -/
theorem lt_memSize_of_writeRanges {i : Instr} {l : Latch} {p : Platform} {r : Range} {a : Nat}
    (hc : checkOperands i l p = .noError) (hr : r ∈ writeRanges i l) (ha : r.has a = true) :
    a < p.memSize := by
  have ho : hasOperands i = true := by cases i <;> simp_all [writeRanges, hasOperands]
  obtain ⟨-, hfits, -⟩ := checkOperands_noError hc ho
  have hend := hfits r (writeRanges_subset_usedRanges i l hr)
  obtain ⟨-, hlt⟩ := (Range.has_iff r a).1 ha
  omega

/-- The write ranges of a running command lie inside device memory. -/
theorem lt_memSize_of_written {i : Instr} (hrun : running i s = true) {a : Nat}
    (ha : inRanges s.latch.written a = true) : a < s.platform.memSize := by
  obtain ⟨-, hd, hc⟩ := (running_iff i s).1 hrun
  rw [written_of_decode hd, inRanges_iff] at ha
  obtain ⟨r, hr, hra⟩ := ha
  exact lt_memSize_of_writeRanges hc hr hra

/-- Spoiling the write ranges of a running command keeps the invariant. -/
theorem Inv.spoilWritten (h : Inv s) {i : Instr} (hrun : running i s = true) :
    Inv (spoil s.latch.written s) := by
  refine Inv.withDraws (h.writeAll fun c hc => ?_) _
  exact lt_memSize_of_written hrun ((mem_flatMap_addresses _ _).1 (mem_drawCells hc).1)

theorem Inv.hostMemWrite (h : Inv s) {a : Nat} {v : Byte} (ht : hostMemWrite a v s = .next t) :
    Inv t := by
  unfold Machine.hostMemWrite at ht
  split at ht
  · next ha =>
    cases ht
    have hw : Inv { s with mem := s.mem.writeAll [(a, v)] } := h.writeAll (by simpa using ha)
    refine { hw with racedBusy := fun hr => ?_ }
    rcases Bool.or_eq_true_iff.1 hr with hr | hr
    · exact h.racedBusy hr
    · exact (Bool.and_eq_true_iff.1 hr).1
  · exact nomatch ht

theorem Inv.hostMemRead (h : Inv s) {a : Nat} (ht : hostMemRead a s = .next t) : Inv t := by
  unfold Machine.hostMemRead at ht
  split at ht
  · split at ht
    · next hw =>
      cases ht
      exact { h with racedBusy := fun _ => (Bool.and_eq_true_iff.1 hw).1 }
    · cases ht; exact h.addReply _
  · exact nomatch ht

/-! START -/

/-- Out of reset IE may take either value. -/
theorem Inv.withIe (h : Inv s) (hr : s.inReset = false) (b : Bool) : Inv { s with ie := b } :=
  { h with resetIdle := by simp [hr] }

theorem Inv.overrun (h : Inv s) (hr : s.inReset = false) : Inv (overrun s) :=
  { h with
    errCodeWithErr := by simp
    busyErrOverrun := fun _ _ => rfl
    resetIdle := by simp [hr] }

theorem Inv.acceptStart (h : Inv s) (hb : s.busy = false) : Inv (acceptStart s) :=
  { h with
    busyNotDone := fun _ => rfl
    busyRuns := by simp [Machine.acceptStart, hb]
    idleNoStage := fun _ => rfl
    errCodeWithErr := by simp [Machine.acceptStart]
    busyErrOverrun := by simp [Machine.acceptStart]
    resetIdle := fun hr => by
      obtain ⟨-, -, -, hie⟩ := h.resetIdle hr
      exact ⟨hb, rfl, rfl, hie⟩ }

theorem Inv.reject (h : Inv s) (hr : s.inReset = false) (hb : s.busy = false) {e : ErrCode}
    (he : e ≠ .noError) : Inv (reject e s) :=
  { h with
    busyNotDone := by simp [hb]
    errCodeWithErr := by simp [he]
    busyErrOverrun := by simp [hb]
    resetIdle := by simp [hr] }

theorem Inv.completeAtStart (h : Inv s) (hr : s.inReset = false) (hb : s.busy = false) :
    Inv (completeAtStart s) :=
  { h with
    busyNotDone := by simp [hb]
    resetIdle := by simp [hr] }

/-- The checks of R236 read no stage. -/
theorem checkOperands_withStages (i : Instr) (l : Latch) (p : Platform) (sts : List Stage) :
    checkOperands i { l with stages := sts } p = checkOperands i l p := by cases i <;> rfl

theorem stagesOf_ne_nil {i : Instr} (ho : hasOperands i = true) : stagesOf i ≠ [] := by
  cases i <;> simp_all [hasOperands, stagesOf]

/-- Issuing the latched command, its checks passed and the status clear, keeps the invariant. -/
theorem Inv.issueStages (h : Inv s) (hr : s.inReset = false) (hdone : s.done = false)
    (herr : s.err = false) {i : Instr} (hd : decode s.latch.cmd = .command i)
    (ho : hasOperands i = true) (hc : checkOperands i s.latch s.platform = .noError) :
    Inv (issueStages i s) :=
  { h with
    busyNotDone := fun _ => hdone
    busyRuns := fun _ => ⟨i, (running_iff i _).2 ⟨rfl, hd, (checkOperands_withStages ..).trans hc⟩,
      stagesOf_ne_nil ho, List.suffix_rfl⟩
    idleNoStage := by simp
    busyErrOverrun := by simp [herr]
    racedBusy := by simp
    resetIdle := by simp [hr] }

theorem Inv.startAction (h : Inv s) (hr : s.inReset = false) (ht : startAction s = .next t) :
    Inv t := by
  rcases startAction_cases ht with
    ⟨-, rfl⟩ | ⟨hb, why, -, rfl⟩ | ⟨hb, i, hd, ⟨-, rfl⟩ | ⟨hc, ho, rfl⟩ | ⟨e, he, -, rfl⟩⟩
  · exact h.overrun hr
  · exact (h.acceptStart hb).reject hr hb (by decide)
  · exact (h.acceptStart hb).completeAtStart hr hb
  · exact (h.acceptStart hb).issueStages hr rfl rfl hd ho hc
  · exact (h.acceptStart hb).reject hr hb he

/-! The host's other operations -/

theorem Inv.acknowledge (h : Inv s) (v : Word) : Inv (acknowledge v s) :=
  { h with
    busyNotDone := fun hb => by simp [h.busyNotDone hb]
    errCodeWithErr := by
      rw [acknowledge_err, acknowledge_errCode]
      cases v.getLsbD 2
      · simpa using h.errCodeWithErr
      · simp
    busyErrOverrun := fun hb => by
      rw [acknowledge_err, acknowledge_errCode]
      cases v.getLsbD 2
      · simpa using h.busyErrOverrun hb
      · simp
    resetIdle := fun hr => by
      obtain ⟨hb, hdone, herr, hie⟩ := h.resetIdle hr
      simp [hb, hdone, herr, hie] }

theorem Inv.regWrite (h : Inv s) {size : BitVec 3} {off : BitVec 8} {v : Word}
    (ht : regWrite size off v s = .next t) : Inv t := by
  rcases regWrite_cases ht with
    rfl | ⟨hr, -, hstart⟩ | ⟨hr, rfl⟩ | ⟨-, -, rfl⟩ | ⟨-, _, _, _, _, _, _, _, rfl⟩
  · exact h
  · exact (h.withIe hr (v.getLsbD 1)).startAction hr hstart
  · exact h.withIe hr _
  · exact h.acknowledge v
  · exact h.withConfig ..

/-- The core in its reset state, over any memory that meets the invariant. -/
theorem Inv.resetRegisters (h : Inv s) (b : Bool) : Inv { resetRegisters s with inReset := b } :=
  { resetMeetsInvariant with
    memCanonical := h.memCanonical
    memInside := h.memInside
    linesInside := by simp [State.reset, Engine.reset]
    resetIdle := fun _ => ⟨rfl, rfl, rfl, rfl⟩ }

theorem Inv.assertReset (h : Inv s) : Inv (assertReset s) := by
  cases hb : s.busy
  · simpa [Machine.assertReset, hb] using h.resetRegisters true
  · obtain ⟨i, hrun, -⟩ := h.busyRuns hb
    simpa [Machine.assertReset, hb] using (h.spoilWritten hrun).resetRegisters true

theorem Inv.releaseReset (h : Inv s) : Inv (releaseReset s) := { h with resetIdle := by simp }

/-- Every operation of the host keeps the invariant. -/
theorem Inv.performOp (h : Inv s) {op : HostOp} (ht : performOp op s = .next t) : Inv t := by
  cases op with
  | regWrite size off v => exact h.regWrite ht
  | regRead size off => cases ht; exact h.addReply _
  | memWrite a v => exact h.hostMemWrite ht
  | memRead a => exact h.hostMemRead ht
  | poll off mask v =>
    simp only [Machine.performOp] at ht
    split at ht <;> cases ht
    · exact h
    · exact h.withHostSide _ s.turns
  | waitIrq => cases ht; exact h
  | setReset asserted =>
    cases asserted <;> cases ht
    · exact h.releaseReset
    · exact h.assertReset

/-! The block agent -/

/-- A scan of the latched raster stays inside the line buffers, whose depth is MAX_WIDTH (R200). -/
theorem linesOk_laplaceStage {i : Instr} (bz : Bool) (hrun : running i s = true)
    (ho : hasOperands i = true) : LinesOk s.platform.maxWidth (laplaceStage bz s).engine := by
  obtain ⟨-, -, hc⟩ := (running_iff i s).1 hrun
  obtain ⟨⟨-, -, hw⟩, -, -⟩ := checkOperands_noError hc ho
  refine linesOk_scan _ _ _ (fun p hp => ?_) (linesOk_unspecified _ _)
  exact (mem_rasterPixels.1 hp).2.trans_le hw

/-- A stage of the running command keeps the invariant: it writes its own range, and LAPLACE the
line buffers. -/
theorem Inv.stageEffect (h : Inv s) {i : Instr} {st : Stage} (hrun : running i s = true)
    (hst : st ∈ stagesOf i) : Inv (stageEffect i st s) := by
  obtain ⟨-, -, hc⟩ := (running_iff i s).1 hrun
  have hlt : ∀ {a}, (stageRange st s.latch).has a = true → a < s.platform.memSize :=
    lt_memSize_of_writeRanges hc (stageRange_mem_writeRanges s.latch hst)
  cases st with
  | gray => exact h.writeAll fun c hc => hlt (grayCells_inside hc)
  | laplace =>
    obtain ⟨hwf, hinside⟩ := linesOk_laplaceStage (bzOf i) hrun (hasOperands_of_mem hst)
    have hmem := h.writeAll fun c (hc : c ∈ laplaceCells (bzOf i) s.latch s.mem) =>
      hlt (laplaceCells_inside hc)
    exact { hmem with linesCanonical := hwf, linesInside := hinside }
  | sharpen => exact h.writeAll fun c hc => hlt (sharpenCells_inside hc)

/-- The end of a command out of reset keeps the invariant (R197). -/
theorem Inv.finish (h : Inv s) (hr : s.inReset = false) : Inv (finish s) :=
  { h with
    busyNotDone := by simp
    busyRuns := by simp
    idleNoStage := fun _ => rfl
    busyErrOverrun := by simp
    racedBusy := by simp
    resetIdle := by simp [hr] }

/-- The sequencer goes on to a later stage of the running command (R197). -/
theorem Inv.nextStage (h : Inv s) (hb : s.busy = true) (hne : s.latch.stages.tail ≠ []) :
    Inv { s with latch := { s.latch with stages := s.latch.stages.tail } } := by
  obtain ⟨i, hrun, -, hsuf⟩ := h.busyRuns hb
  obtain ⟨-, hd, hc⟩ := (running_iff i s).1 hrun
  exact { h with
    busyRuns := fun _ => ⟨i, (running_iff i _).2 ⟨hb, hd, (checkOperands_withStages ..).trans hc⟩,
      hne, (List.tail_suffix _).trans hsuf⟩
    idleNoStage := by simp [hb] }

theorem Inv.advance (h : Inv s) (hr : s.inReset = false) (hb : s.busy = true) :
    Inv (advance s) := by
  rcases advance_cases s with ⟨heq, -, -⟩ | ⟨heq, -, -⟩ | ⟨hne, heq⟩ <;> rw [heq]
  · exact h.finish hr
  · obtain ⟨i, hrun, -⟩ := h.busyRuns hb
    exact (h.spoilWritten hrun).finish hr
  · exact h.nextStage hb hne

theorem Inv.blockStep (h : Inv s) (hr : s.inReset = false) (hb : s.busy = true)
    (ht : blockStep s = .next t) : Inv t := by
  obtain ⟨i, st, rest, hrun, -, hst, rfl⟩ := blockStep_cases hb ht
  obtain ⟨⟨hbusy, -, -, -⟩, -, -, ⟨-, hreset, -⟩, -⟩ := stageEffect_frame i st s
  exact (h.stageEffect hrun hst).advance (hreset.trans hr) (hbusy.trans hb)

/-- Settles O29, by the agent that moves: none, the host with an operation, or the block agent with
a stage. -/
theorem stepKeepsInvariant : Obligations.StepKeepsInvariant := by
  intro s t h ht
  rcases step_cases s with
    ⟨-, hstep⟩ | ⟨-, op, rest, ts, -, hstep⟩ | ⟨-, hb, hr, ts, hstep⟩ <;> rw [hstep] at ht
  · cases ht; exact h
  · exact (h.withHostSide rest ts).performOp ht
  · exact (h.withHostSide s.host ts).blockStep hr hb ht

end Sys2Proof.Machine
end

section
/-!
START and the block agent's step (O15, O32): the issue of a command whose checks pass, and what a
stage step leaves alone.
-/

namespace Sys2Proof.Machine

/-- The START of a legal word runs its command on the accepted state (R191). -/
theorem startAction_of_command {s : State} {i : Instr} (hb : s.busy = false)
    (hd : decode s.cmd = .command i) : startAction s = exec i (acceptStart s) := by
  have hlatched : decode (acceptStart s).latch.cmd = .command i := hd
  simp [startAction, hb, hlatched]

theorem issueOrReject_of_noError {s : State} {i : Instr}
    (hc : checkOperands i s.latch s.platform = .noError) :
    issueOrReject i s = issueStages i s := by simp [issueOrReject, hc]

/-- Settles O15: the START issues the command on the accepted state, whose latch holds the registers
and whose status is clear. -/
theorem acceptedStartIssues : Obligations.AcceptedStartIssues := by
  intro s i hb hd ho hc
  have hstart : startAction s = .next (issueStages i (acceptStart s)) := by
    rw [startAction_of_command hb hd, exec_idle (s := acceptStart s) hb ho,
      issueOrReject_of_noError hc]
  refine ⟨_, hstart, ?_⟩
  simp [acceptStart, State.stage, SameRegisters, SameSurroundings]

/-- A stage of the running command and the sequencer after it change no byte outside the command's
write ranges. -/
theorem read_advance_stageEffect_outside {s : State} {i : Instr} {st : Stage} {a : Nat}
    (hrun : running i s = true) (hst : st ∈ stagesOf i) (ha : inRanges s.latch.written a = false) :
    (advance (stageEffect i st s)).mem.read a = s.mem.read a := by
  obtain ⟨-, hd, -⟩ := (running_iff i s).1 hrun
  obtain ⟨-, -, hlatch, -⟩ := stageEffect_frame i st s
  have hstage : (stageRange st s.latch).has a = false := by
    rw [written_of_decode hd, inRanges_eq_false] at ha
    exact ha _ (stageRange_mem_writeRanges s.latch hst)
  rw [read_advance_outside (hlatch.symm ▸ ha), read_stageEffect_outside hstage]

/-- What a stage step never changes, beside the bytes outside the write ranges (R42, R238). -/
theorem advance_stageEffect_frame (i : Instr) (st : Stage) (s : State) :
    StageFrame s (advance (stageEffect i st s)) ∧
    (advance (stageEffect i st s)).err = s.err ∧
    (advance (stageEffect i st s)).errCode = s.errCode := by
  obtain ⟨⟨-, -, he, hec⟩, hregs, hlatch, hsur, -⟩ := stageEffect_frame i st s
  obtain ⟨hregs', he', hec', hops, hsur', -⟩ := advance_frame (stageEffect i st s)
  rw [SameRegisters] at hregs
  rw [SameSurroundings] at hsur
  rw [hlatch] at hops
  refine ⟨⟨?_, hops, ?_⟩, he'.trans he, hec'.trans hec⟩
  · simpa [SameRegisters, hregs] using hregs'
  · simpa [SameSurroundings, hsur] using hsur'

/-- Settles O32: a block step is one stage of the running command and the sequencer's advance. -/
theorem blockStepStaysInWriteRanges : Obligations.BlockStepStaysInWriteRanges := by
  intro s t hm ht
  rcases step_cases s with ⟨hm', -⟩ | ⟨hm', -⟩ | ⟨-, hb, -, ts, hstep⟩
  · simp [hm] at hm'
  · simp [hm] at hm'
  · obtain ⟨i, st, -, hrun, -, hst, rfl⟩ :=
      blockStep_cases (s := { s with turns := ts }) hb (hstep ▸ ht)
    obtain ⟨⟨hregs, hops, hplat, hres, hhost, -, hrep⟩, he, hec⟩ :=
      advance_stageEffect_frame i st { s with turns := ts }
    exact ⟨fun _ => read_advance_stageEffect_outside hrun hst, hregs, hops, he, hec, hplat, hhost,
      hrep, hres⟩

end Sys2Proof.Machine
end

section
/-!
The register window (O8, O34 to O38): an access that acts is a read or a write of the register its
offset names, and each field of STATUS stands in its place.
-/

namespace Sys2Proof.Machine

variable {s : State}

@[simp] theorem regAt_offset (r : Reg) : regAt r.offset = some r := by cases r <;> rfl

@[simp] theorem regAccessActs_offset (r : Reg) : regAccessActs 4#3 r.offset = true := by
  cases r <;> rfl

theorem regWrite_offset (r : Reg) (v : Word) (hr : s.inReset = false) :
    regWrite 4#3 r.offset v s = writeReg r v s := by simp [regWrite, hr]

theorem regRead_offset (r : Reg) (hr : s.inReset = false) :
    regRead 4#3 r.offset s = readReg r s := by simp [regRead, hr]

/-- Settles O8: each register, the sequencer and the interrupt, evaluated on the reset state. -/
theorem resetStateHoldsSpecValues : Obligations.ResetStateHoldsSpecValues :=
  ⟨rfl, rfl, rfl, rfl, rfl, rfl, rfl, rfl, rfl, rfl, rfl, rfl⟩

/-- A 16-bit field reads back the low half of the word written (R30, R32). -/
theorem setWidth_low16 (v : Word) : (v.setWidth 16).setWidth 32 = v &&& 0x0000FFFF#32 := by
  apply BitVec.eq_of_toNat_eq
  have hmask : v.toNat &&& 0xFFFF = v.toNat % 0x10000 := Nat.and_two_pow_sub_one_eq_mod v.toNat 16
  simp only [BitVec.toNat_setWidth, BitVec.toNat_and, BitVec.toNat_ofNat, Nat.reducePow,
    Nat.reduceMod, hmask]
  omega

/-- Settles O34, one register at a time. -/
theorem configWriteChangesOnlyRegister : Obligations.ConfigWriteChangesOnlyRegister := by
  intro s v hr
  exact ⟨regWrite_offset .cmd v hr, regWrite_offset .width v hr, regWrite_offset .height v hr,
    regWrite_offset .rgbAddr v hr, regWrite_offset .grayAddr v hr, regWrite_offset .edgeAddr v hr,
    regWrite_offset .outAddr v hr, regRead_offset .cmd hr,
    setWidth_low16 v ▸ regRead_offset .width hr,
    setWidth_low16 v ▸ regRead_offset .height hr,
    regRead_offset .rgbAddr hr, regRead_offset .grayAddr hr, regRead_offset .edgeAddr hr,
    regRead_offset .outAddr hr⟩

/-- A RegWrite to CTRL with bit 0 = 0 performs no START. -/
theorem regWrite_ctrl_of_noStart (hr : s.inReset = false) {v : Word} (hv : v.getLsbD 0 = false) :
    regWrite 4#3 0x00#8 v s = .next { s with ie := v.getLsbD 1 } :=
  (regWrite_offset .ctrl v hr).trans (if_neg (by rw [hv]; decide))

/-- CTRL holds IE in bit 1 and 0 in every other bit (R27). -/
theorem ctrlWord_eq (s : State) : s.ctrlWord = if s.ie then 0x00000002#32 else 0#32 := by
  rw [State.ctrlWord]
  cases s.ie <;> rfl

/-- Settles O35: masking the word written with bit 1 leaves what CTRL reads. -/
theorem ctrlHoldsOnlyIe : Obligations.CtrlHoldsOnlyIe := by
  intro s v hr
  refine ⟨regWrite_ctrl_of_noStart hr, ?_⟩
  have hread : regRead 4#3 0x00#8 { s with ie := v.getLsbD 1 } =
      State.ctrlWord { s with ie := v.getLsbD 1 } := regRead_offset .ctrl hr
  rw [hread, ctrlWord_eq]
  exact (BitVec.and_twoPow v 1).symm

/-- Settles O36: the masks of `acknowledge` are the two conditions of R24. -/
theorem statusWriteAcknowledges : Obligations.StatusWriteAcknowledges := by
  intro s v hr
  have hack : regWrite 4#3 0x04#8 v s = .next (acknowledge v s) := regWrite_offset .status v hr
  rw [hack, acknowledge]
  cases v.getLsbD 1 <;> cases v.getLsbD 2 <;> simp

/-! STATUS, field by field (R28) -/

section
variable (s : State)

theorem statusWord_busy : s.statusWord.getLsbD 0 = s.busy := by
  rw [State.statusWord]
  repeat rw [BitVec.getLsbD_append]
  simp

theorem statusWord_done : s.statusWord.getLsbD 1 = s.done := by
  rw [State.statusWord]
  repeat rw [BitVec.getLsbD_append]
  simp

theorem statusWord_err : s.statusWord.getLsbD 2 = s.err := by
  rw [State.statusWord]
  repeat rw [BitVec.getLsbD_append]
  simp

theorem statusWord_bit3 : s.statusWord.getLsbD 3 = false := by
  rw [State.statusWord]
  repeat rw [BitVec.getLsbD_append]
  simp

theorem statusWord_errCode : s.statusWord.extractLsb' 4 4 = s.errCode.code := by
  rw [State.statusWord]
  iterate 4 rw [BitVec.extractLsb'_append_eq_of_le (by decide)]
  rw [BitVec.extractLsb'_append_eq_of_add_le (by decide)]
  exact BitVec.extractLsb'_eq_self

theorem statusWord_stage : s.statusWord.extractLsb' 8 2 = stageCode s.stage := by
  rw [State.statusWord]
  iterate 5 rw [BitVec.extractLsb'_append_eq_of_le (by decide)]
  rw [BitVec.extractLsb'_append_eq_of_add_le (by decide)]
  exact BitVec.extractLsb'_eq_self

theorem statusWord_irq : s.statusWord.getLsbD 10 = s.irq := by
  rw [State.statusWord]
  repeat rw [BitVec.getLsbD_append]
  simp

theorem statusWord_reserved : s.statusWord.extractLsb' 11 21 = 0#21 := by
  rw [State.statusWord]
  iterate 7 rw [BitVec.extractLsb'_append_eq_of_le (by decide)]
  exact BitVec.extractLsb'_eq_self

end

theorem stage_of_idle (hb : s.busy = false) : s.stage = none := by simp [State.stage, hb]

theorem stage_of_busy (hb : s.busy = true) : s.stage = s.latch.stages.head? := by
  simp [State.stage, hb]

/-- Settles O37: the fields in their places, then the code each value of ERR_CODE and STAGE has. -/
theorem statusFields : Obligations.StatusFields := by
  intro s hr v
  have hv : v = s.statusWord := regRead_offset .status hr
  rw [hv, statusWord_errCode, statusWord_stage]
  refine ⟨statusWord_busy s, statusWord_done s, statusWord_err s, statusWord_bit3 s, rfl, rfl,
    statusWord_irq s, statusWord_reserved s, ?_⟩
  have hcode (e : ErrCode) (he : s.errCode = e) : s.errCode.code = e.code := by rw [he]
  have hstage (st : Stage) (hb : s.busy = true) (hh : s.latch.stages.head? = some st) :
      stageCode s.stage = stageCode (some st) := by rw [stage_of_busy hb, hh]
  exact ⟨hcode _, hcode _, hcode _, hcode _, hcode _, hcode _,
    fun hb => by rw [stage_of_idle hb]; rfl, hstage _, hstage _, hstage _⟩

/-- Settles O38: acknowledging both flags or masking with IE = 0 makes the level 0. -/
theorem irqIsLevel : Obligations.IrqIsLevel := by
  intro s
  refine ⟨by simp [State.irq], fun hr => ⟨?_, ?_, ?_⟩⟩
  · exact (congrArg (·.getLsbD 10) (regRead_offset .status hr)).trans (statusWord_irq s)
  · exact ⟨_, regWrite_offset .status _ hr, by simp [State.irq]⟩
  · exact ⟨_, regWrite_ctrl_of_noStart hr rfl, rfl, rfl, rfl⟩

end Sys2Proof.Machine
end

section
/-!
The operands a command accepts (O13): the checks of R236 hold exactly when the dimensions, the
ranges and the pairs of ranges do.
-/

namespace Sys2Proof.Machine

theorem badDim_eq_false (l : Latch) (p : Platform) :
    badDim l p = false ↔ 0 < l.w ∧ 0 < l.h ∧ l.w ≤ p.maxWidth := by
  simp [badDim, Nat.pos_iff_ne_zero, and_assoc]

theorem Range.fits_eq_true (r : Range) (n : Nat) : r.fits n = true ↔ r.base + r.len ≤ n :=
  decide_eq_true_iff

/-- The checks of R236 pass exactly when each of them does: the converse of
`checkOperands_noError`. -/
theorem checkOperands_noError_iff {i : Instr} (l : Latch) (p : Platform)
    (ho : hasOperands i = true) :
    checkOperands i l p = .noError ↔
      (0 < l.w ∧ 0 < l.h ∧ l.w ≤ p.maxWidth) ∧
      (∀ r ∈ usedRanges i l, r.base + r.len ≤ p.memSize) ∧
      (∀ q ∈ overlapPairs i l, q.1.meets q.2 = false) := by
  refine ⟨fun h => checkOperands_noError h ho, fun ⟨hdim, hfits, hmeets⟩ => ?_⟩
  have hd : badDim l p = false := (badDim_eq_false l p).2 hdim
  have hr : (usedRanges i l).any (fun r => !r.fits p.memSize) = false :=
    List.any_eq_false.2 fun r hr => by simp [(r.fits_eq_true _).2 (hfits r hr)]
  have hp : (overlapPairs i l).any (fun q => q.1.meets q.2) = false :=
    List.any_eq_false.2 fun q hq => by simp [hmeets q hq]
  simp [checkOperands, ho, hd, hr, hp]

/-- Settles O13: the tables of R234 and R235, read off command by command. -/
theorem acceptedOperands : Obligations.AcceptedOperands := by
  intro l p bz rnd
  refine ⟨rfl, ?_, ?_, ?_, ?_⟩ <;> rw [checkOperands_noError_iff l p rfl] <;>
    simp [usedRanges, overlapPairs, Range.meets_eq_false, Latch.rgbRange, Latch.grayRange,
      Latch.edgeRange, Latch.outRange, Latch.pixels, and_assoc]

end Sys2Proof.Machine
end

section
/-!
Device memory and the host (O33, O41, O42): what a host access to memory returns and changes, and
that every other operation of the host leaves memory alone.
-/

namespace Sys2Proof.Machine

variable {s t : State}

/-- A START writes no byte: its stages run in later steps (R191, R194). -/
theorem startAction_mem (h : startAction s = .next t) : t.mem = s.mem := by
  rcases startAction_cases h with
    ⟨-, rfl⟩ | ⟨-, _, -, rfl⟩ | ⟨-, _, -, ⟨-, rfl⟩ | ⟨-, -, rfl⟩ | ⟨_, -, -, rfl⟩⟩ <;> rfl

theorem regWrite_mem {size : BitVec 3} {off : BitVec 8} {v : Word}
    (h : regWrite size off v s = .next t) : t.mem = s.mem := by
  rcases regWrite_cases h with
    rfl | ⟨-, -, hstart⟩ | ⟨-, rfl⟩ | ⟨-, -, rfl⟩ | ⟨-, _, _, _, _, _, _, _, rfl⟩
  · rfl
  · exact startAction_mem (s := { s with ie := v.getLsbD 1 }) hstart
  all_goals rfl

theorem hostMemRead_mem {a : Nat} (h : hostMemRead a s = .next t) : t.mem = s.mem := by
  unfold hostMemRead at h
  split at h
  · split at h <;> cases h <;> rfl
  · exact nomatch h

/-- An operation that is no HostMemWrite and no assertion of reset leaves device memory as it is. -/
theorem performOp_mem {op : HostOp} (hop : op.touchesMemory = false)
    (h : performOp op s = .next t) : t.mem = s.mem := by
  cases op with
  | regWrite size off v => exact regWrite_mem h
  | regRead size off => cases h; rfl
  | memWrite a v => exact nomatch hop
  | memRead a => exact hostMemRead_mem h
  | poll off mask v =>
    simp only [performOp] at h
    split at h <;> cases h <;> rfl
  | waitIrq => cases h; rfl
  | setReset asserted =>
    cases asserted
    · cases h; rfl
    · exact nomatch hop

/-- Settles O33: the host's step is its next operation, taken from the list. -/
theorem hostStepLeavesMemory : Obligations.HostStepLeavesMemory := by
  intro s t op rest hm hhost hop ht
  rcases step_cases s with ⟨hm', -⟩ | ⟨-, op', rest', ts, hhost', hstep⟩ | ⟨hm', -⟩
  · simp [hm] at hm'
  · obtain ⟨rfl, -⟩ := List.cons.inj (hhost.symm.trans hhost')
    exact performOp_mem (s := { s with turns := ts, host := rest' }) hop (hstep ▸ ht)
  · simp [hm] at hm'

/-- Settles O41: the operation adds its reply, by definition. -/
theorem regReadHasNoSideEffect : Obligations.RegReadHasNoSideEffect := fun _ _ _ => rfl

theorem hostMemWrite_of_lt {a : Nat} (v : Byte) (ha : a < s.platform.memSize) :
    hostMemWrite a v s = .next { s with
      mem := s.mem.write a v
      raced := s.raced || (s.busy && inRanges s.latch.used a) } := if_pos ha

/-- A read that R79 does not forbid returns the byte. -/
theorem hostMemRead_of_allowed {a : Nat} (ha : a < s.platform.memSize)
    (hw : s.busy = false ∨ inRanges s.latch.written a = false) :
    hostMemRead a s = .next (addReply (.mem a (s.mem.read a)) s) := by
  have hfree : (s.busy && inRanges s.latch.written a) = false := Bool.and_eq_false_iff.2 hw
  simp [hostMemRead, ha, hfree]

/-- Settles O42: a read after the write, and a read that races no command. -/
theorem hostMemoryReadsBack : Obligations.HostMemoryReadsBack := by
  intro s a v _ ha
  refine ⟨⟨_, hostMemWrite_of_lt v ha, ?_, ?_, ?_⟩, hostMemRead_of_allowed ha⟩
  · exact (Memory.read_write ..).trans (if_pos rfl)
  · exact fun b hb => (Memory.read_write ..).trans (if_neg hb)
  · simp [SameRegisters, SameStatus, SameSurroundings]

end Sys2Proof.Machine
end

section
/-!
The edge detector and reversals of the raster (O51): the stencil is symmetric in both directions,
and a reversal takes border pixels to border pixels.
-/

namespace Sys2Proof.Machine

/-- The nine-term sum of R143 with the zeros and ones of the stencil worked out. -/
theorem filterValue_eq_fivePoint (l : Latch) (m : Memory) {y x : Nat} (hy : 1 ≤ y) (hx : 1 ≤ x) :
    filterValue l m y x =
      4 * ((zSample l m y x).toNat : Int) - (zSample l m (y - 1) x).toNat
        - (zSample l m (y + 1) x).toNat - (zSample l m y (x - 1)).toNat
        - (zSample l m y (x + 1)).toNat := by
  obtain ⟨y, rfl⟩ := Nat.exists_eq_add_of_le' hy
  obtain ⟨x, rfl⟩ := Nat.exists_eq_add_of_le' hx
  simp [filterValue, stencil, List.range_succ, Nat.add_assoc]
  omega

variable {l : Latch} {m m' : Memory}

/-- The raster of `m'` is that of `m` with the rows in reverse order. -/
def RowsReversed (l : Latch) (m m' : Memory) : Prop :=
  ∀ y x, y < l.h → x < l.w →
    m'.read (l.gray.toNat + y * l.w + x) = m.read (l.gray.toNat + (l.h - 1 - y) * l.w + x)

/-- The raster of `m'` is that of `m` with the columns in reverse order. -/
def ColumnsReversed (l : Latch) (m m' : Memory) : Prop :=
  ∀ y x, y < l.h → x < l.w →
    m'.read (l.gray.toNat + y * l.w + x) = m.read (l.gray.toNat + y * l.w + (l.w - 1 - x))

theorem onBorder_reverseRow (w : Nat) {h y : Nat} (x : Nat) (hy : y < h) :
    onBorder w h (h - 1 - y, x) = onBorder w h (y, x) := by
  rw [Bool.eq_iff_iff, onBorder_eq_true, onBorder_eq_true]
  omega

theorem onBorder_reverseColumn (h : Nat) {w x : Nat} (y : Nat) (hx : x < w) :
    onBorder w h (y, w - 1 - x) = onBorder w h (y, x) := by
  rw [Bool.eq_iff_iff, onBorder_eq_true, onBorder_eq_true]
  omega

theorem RowsReversed.zSample_eq (hr : RowsReversed l m m') {y x : Nat} (hy : y < l.h)
    (hx : x < l.w) : zSample l m' y x = zSample l m (l.h - 1 - y) x := by
  simp only [zSample, onBorder_reverseRow l.w x hy, hr y x hy hx]

theorem ColumnsReversed.zSample_eq (hc : ColumnsReversed l m m') {y x : Nat} (hy : y < l.h)
    (hx : x < l.w) : zSample l m' y x = zSample l m y (l.w - 1 - x) := by
  simp only [zSample, onBorder_reverseColumn l.h y hx, hc y x hy hx]

/-- Reversing the rows exchanges the samples above and below a pixel. -/
theorem RowsReversed.edgeAt_eq (hr : RowsReversed l m m') {y x : Nat} (hy : 1 ≤ y)
    (hy' : y + 1 < l.h) (hx : 1 ≤ x) (hx' : x + 1 < l.w) :
    edgeAt l m' y x = edgeAt l m (l.h - 1 - y) x := by
  have habove : l.h - 1 - (y - 1) = l.h - 1 - y + 1 := by omega
  have hbelow : l.h - 1 - (y + 1) = l.h - 1 - y - 1 := by omega
  have hf : filterValue l m' y x = filterValue l m (l.h - 1 - y) x := by
    rw [filterValue_eq_fivePoint l m' hy hx, filterValue_eq_fivePoint l m (by omega) hx]
    simp (disch := omega) only [hr.zSample_eq, habove, hbelow]
    omega
  rw [edgeAt, edgeAt, hf]

/-- Reversing the columns exchanges the samples left and right of a pixel. -/
theorem ColumnsReversed.edgeAt_eq (hc : ColumnsReversed l m m') {y x : Nat} (hy : 1 ≤ y)
    (hy' : y + 1 < l.h) (hx : 1 ≤ x) (hx' : x + 1 < l.w) :
    edgeAt l m' y x = edgeAt l m y (l.w - 1 - x) := by
  have hleft : l.w - 1 - (x - 1) = l.w - 1 - x + 1 := by omega
  have hright : l.w - 1 - (x + 1) = l.w - 1 - x - 1 := by omega
  have hf : filterValue l m' y x = filterValue l m y (l.w - 1 - x) := by
    rw [filterValue_eq_fivePoint l m' hy hx, filterValue_eq_fivePoint l m hy (by omega)]
    simp (disch := omega) only [hc.zSample_eq, hleft, hright]
    omega
  rw [edgeAt, edgeAt, hf]

/-- Settles O51: each reversal exchanges two samples of equal weight in the five-point sum. -/
theorem edgeCommutesWithFlips : Obligations.EdgeCommutesWithFlips :=
  fun _ _ _ => ⟨fun hr _ _ => RowsReversed.edgeAt_eq hr, fun hc _ _ => ColumnsReversed.edgeAt_eq hc⟩

end Sys2Proof.Machine
end

section
/-!
Command words (O1 to O4): a word is its five fields, so it decodes to a command exactly when its
reserved bits are 0 and the command's encoding has its other fields.
-/

namespace Sys2Proof

/-- The five fields of R93, put side by side, are the word. -/
theorem append_fields (c : Word) :
    c.extractLsb' 6 26 ++ BitVec.ofBool (rndField c) ++ BitVec.ofBool (bzField c) ++
      BitVec.ofBool (c.getLsbD 3) ++ opField c = c := by
  have hbit (k : Nat) : BitVec.ofBool (c.getLsbD k) = c.extractLsb' k 1 := by
    apply BitVec.eq_of_getLsbD_eq
    intro i hi
    obtain rfl : i = 0 := by omega
    simp
  rw [rndField, bzField, opField, hbit, hbit, hbit]
  iterate 4 rw [BitVec.extractLsb'_append_extractLsb'_eq_extractLsb' (by decide)]
  exact BitVec.extractLsb'_eq_self

theorem reservedSet_eq_false_iff (c : Word) :
    reservedSet c = false ↔ c.getLsbD 3 = false ∧ c.extractLsb' 6 26 = 0#26 := by
  simp [reservedSet]

section
variable (op : BitVec 3) (bz rnd : Bool)

@[simp] theorem opField_commandWord : opField (commandWord op bz rnd) = op :=
  BitVec.extractLsb'_append_eq_right

@[simp] theorem bzField_commandWord : bzField (commandWord op bz rnd) = bz := by
  rw [bzField, commandWord]
  repeat rw [BitVec.getLsbD_append]
  simp

@[simp] theorem rndField_commandWord : rndField (commandWord op bz rnd) = rnd := by
  rw [rndField, commandWord]
  repeat rw [BitVec.getLsbD_append]
  simp

@[simp] theorem reservedSet_commandWord : reservedSet (commandWord op bz rnd) = false := by
  rw [reservedSet_eq_false_iff, commandWord]
  constructor
  · repeat rw [BitVec.getLsbD_append]
    simp
  · iterate 4 rw [BitVec.extractLsb'_append_eq_of_le (by decide)]
    exact BitVec.extractLsb'_eq_self

end

/-- A word with no reserved bit set is the command word of its fields. -/
theorem commandWord_fields {c : Word} (h : reservedSet c = false) :
    commandWord (opField c) (bzField c) (rndField c) = c := by
  obtain ⟨hbit3, hhigh⟩ := (reservedSet_eq_false_iff c).1 h
  have hfields := append_fields c
  rwa [hbit3, hhigh] at hfields

theorem decode_of_reserved {c : Word} (h : reservedSet c = true) :
    decode c = .illegal .reservedBits := if_pos h

theorem decode_of_notReserved {c : Word} (h : reservedSet c = false) :
    decode c = decodeOp (opField c).toNat (bzField c) (rndField c) := by simp [decode, h]

theorem decode_commandWord (op : BitVec 3) (bz rnd : Bool) :
    decode (commandWord op bz rnd) = decodeOp op.toNat bz rnd := by
  simp [decode_of_notReserved]

theorem decode_encode (i : Instr) : decode (encode i) = .command i := by
  cases i <;> exact decode_commandWord ..

theorem encode_injective : Function.Injective encode := fun i j h =>
  Decoded.command.inj ((decode_encode i).symm.trans ((congrArg decode h).trans (decode_encode j)))

/-- An opcode selects a command whose encoding holds that opcode and the same modifier bits (R94). -/
theorem encode_of_decodeOp {op : BitVec 3} {bz rnd : Bool} {i : Instr}
    (h : decodeOp op.toNat bz rnd = .command i) : encode i = commandWord op bz rnd := by
  unfold decodeOp at h
  split at h <;> cases h
  all_goals
    next hop =>
      obtain ⟨-, rfl⟩ := BitVec.toNat_eq_nat.1 hop
      rfl

theorem reservedSet_of_decode {c : Word} {i : Instr} (h : decode c = .command i) :
    reservedSet c = false := by
  cases hr : reservedSet c
  · rfl
  · exact nomatch (decode_of_reserved hr).symm.trans h

theorem eq_encode_of_decode {c : Word} {i : Instr} (h : decode c = .command i) : c = encode i := by
  have hr := reservedSet_of_decode h
  rw [encode_of_decodeOp ((decode_of_notReserved hr).symm.trans h), commandWord_fields hr]

/-- Settles O1: the fields of a word that decodes are those of the command's encoding. -/
theorem decodeIsTheInverseOfEncode : Obligations.DecodeIsTheInverseOfEncode :=
  fun _ i => ⟨eq_encode_of_decode, fun h => h ▸ decode_encode i⟩

/-! The mask of R100 covers OP and the reserved bits, and leaves out BZ and RND. -/

theorem opField_and_mask (c : Word) : opField (c &&& 0xFFFFFFCF#32) = opField c := by
  rw [opField, BitVec.extractLsb'_and]
  exact BitVec.and_allOnes

theorem reservedSet_and_mask (c : Word) : reservedSet (c &&& 0xFFFFFFCF#32) = reservedSet c := by
  have hhigh : (c &&& 0xFFFFFFCF#32).extractLsb' 6 26 = c.extractLsb' 6 26 := by
    rw [BitVec.extractLsb'_and]
    exact BitVec.and_allOnes
  rw [reservedSet, reservedSet, hhigh, BitVec.getLsbD_and]
  simp

/-- Under the mask, a word with no reserved bit set is its opcode. -/
theorem toNat_and_mask {c : Word} (h : reservedSet c = false) :
    (c &&& 0xFFFFFFCF#32).toNat = (opField c).toNat := by
  have hbz : bzField (c &&& 0xFFFFFFCF#32) = false := by simp [bzField]
  have hrnd : rndField (c &&& 0xFFFFFFCF#32) = false := by simp [rndField]
  have hword := commandWord_fields ((reservedSet_and_mask c).trans h)
  rw [opField_and_mask, hbz, hrnd] at hword
  rw [← hword]
  have hzero : ∀ op : BitVec 3, (commandWord op false false).toNat = op.toNat := by decide
  exact hzero _

/-- The decoder looks at a word through the mask, and at its modifier bits. -/
theorem decode_eq_masked (c : Word) :
    decode c = if reservedSet (c &&& 0xFFFFFFCF#32) then .illegal .reservedBits
      else decodeOp (opField (c &&& 0xFFFFFFCF#32)).toNat (bzField c) (rndField c) := by
  rw [reservedSet_and_mask, opField_and_mask, decode]

theorem decode_of_mask_eq {c m : Word} (h : c &&& 0xFFFFFFCF#32 = m) :
    decode c = if reservedSet m then .illegal .reservedBits
      else decodeOp (opField m).toNat (bzField c) (rndField c) := h ▸ decode_eq_masked c

theorem decodeOp_of_gt {op : Nat} (h : 4 < op) (bz rnd : Bool) :
    decodeOp op bz rnd = .illegal .reservedOp := by
  unfold decodeOp
  split
  case h_6 => rfl
  all_goals omega

theorem decode_of_mask_gt {c : Word} (h : 4#32 < c &&& 0xFFFFFFCF#32) :
    ∃ why, decode c = .illegal why := by
  cases hr : reservedSet c
  · have hop : 4 < (opField c).toNat := toNat_and_mask hr ▸ BitVec.lt_def.1 h
    exact ⟨.reservedOp, (decode_of_notReserved hr).trans (decodeOp_of_gt hop ..)⟩
  · exact ⟨.reservedBits, decode_of_reserved hr⟩

/-- Settles O2: a value of the table fixes the opcode, a larger one has a reserved bit or a reserved
opcode. -/
theorem decodeFollowsMaskTable : Obligations.DecodeFollowsMaskTable := fun _ =>
  ⟨decode_of_mask_eq, decode_of_mask_eq, decode_of_mask_eq, decode_of_mask_eq, decode_of_mask_eq,
    decode_of_mask_gt⟩

/-! The canonical words -/

/-- The commands that have a canonical word, in the order R101 lists them. -/
def canonicalCommands : List Instr :=
  [.nop false false, .gray false false, .gray false true, .laplace false false,
    .laplace true false, .sharpen false false, .pipeline false false, .pipeline true false,
    .pipeline false true, .pipeline true true]

theorem wellFormed_iff_mem_canonicalCommands (i : Instr) :
    i.wellFormed = true ↔ i ∈ canonicalCommands := by
  cases i
  all_goals
    rename_i bz rnd
    revert bz rnd
    decide

/-- Settles O3: no two commands share a word, so a word is in the list when its command is. -/
theorem canonicalWords : Obligations.CanonicalWords := by
  refine ⟨rfl, rfl, rfl, rfl, rfl, rfl, rfl, rfl, rfl, rfl, fun i => ?_⟩
  have hmem : encode i ∈ canonicalCommands.map encode ↔ i ∈ canonicalCommands :=
    List.mem_map_of_injective encode_injective
  exact (wellFormed_iff_mem_canonicalCommands i).trans hmem.symm

/-- Settles O4: five of the words are encodings, the other three have a reserved opcode or bit. -/
theorem specWordsDecode : Obligations.SpecWordsDecode :=
  ⟨decode_encode (.nop true true), decode_encode (.gray false true),
    decode_encode (.laplace true false), decode_encode (.sharpen true true),
    decode_encode (.pipeline true true), rfl, rfl, rfl⟩

end Sys2Proof
end

section
/-!
The accesses to the register window that do nothing (O39, O40): those that do not act, and those at a
reserved offset.
-/

namespace Sys2Proof.Machine

variable {size : BitVec 3} {off : BitVec 8}

theorem regWrite_of_notActs (h : regAccessActs size off = false) (v : Word) (s : State) :
    regWrite size off v s = .next s := by simp [regWrite, h]

theorem regRead_of_notActs (h : regAccessActs size off = false) (s : State) :
    regRead size off s = 0#32 := by simp [regRead, h]

theorem regWrite_of_reserved (h : regAt off = none) (size : BitVec 3) (v : Word) (s : State) :
    regWrite size off v s = .next s := by simp [regWrite, h]

theorem regRead_of_reserved (h : regAt off = none) (size : BitVec 3) (s : State) :
    regRead size off s = 0#32 := by simp [regRead, h]

/-- Settles O39: such an access does not act. -/
theorem narrowOrMisalignedAccess : Obligations.NarrowOrMisalignedAccess := by
  intro s size off v h
  have hacts : regAccessActs size off = false := by
    simpa [regAccessActs, imp_iff_not_or] using h
  exact ⟨regWrite_of_notActs hacts v s, regRead_of_notActs hacts s⟩

/-- R26's table ends at OUT_ADDR. -/
theorem regAt_eq_none (h : 0x24 ≤ off.toNat) : regAt off = none := by
  unfold regAt
  split
  case h_10 => rfl
  all_goals omega

/-- Settles O40, by the register at the offset or its absence. -/
theorem registerMap : Obligations.RegisterMap := by
  intro s v
  refine ⟨fun hr => ?_, fun off hoff => ?_⟩
  · have hreg (r : Reg) :
        regRead 4#3 r.offset s = readReg r s ∧ regWrite 4#3 r.offset v s = writeReg r v s :=
      ⟨regRead_offset r hr, regWrite_offset r v hr⟩
    exact ⟨hreg .ctrl, hreg .status, hreg .cmd, hreg .width, hreg .height, hreg .rgbAddr,
      hreg .grayAddr, hreg .edgeAddr, hreg .outAddr⟩
  · have hnone := regAt_eq_none hoff
    exact ⟨regWrite_of_reserved hnone 4#3 v s, regRead_of_reserved hnone 4#3 s⟩

end Sys2Proof.Machine
end

section
/-!
The luma of a pixel (O45, O46): the weights of R120 add up to 1000, so the sum in thousandths never
leaves the sample range and the clamp has nothing to do.
-/

namespace Sys2Proof.Machine

variable (r g b : Byte)

/-- R123's bound: 255 thousand, met by the white pixel. -/
theorem weightedSum_le : weightedSum r g b ≤ 255000 := by
  have hr := r.isLt
  have hg := g.isLt
  have hb := b.isLt
  rw [weightedSum]
  omega

/-- Storing a natural number of the sample range loses nothing. -/
theorem clampByte_natCast_toNat {n : Nat} (hn : n ≤ 255) : (clampByte (n : Int)).toNat = n :=
  Int.ofNat_inj.1 (clampByte_toNat_of_inRange (Int.natCast_nonneg n) (Int.ofNat_le.2 hn))

theorem luma_truncated_toNat : (luma false r g b).toNat = weightedSum r g b / 1000 := by
  have hsum := weightedSum_le r g b
  have hquot : weightedSum r g b / 1000 ≤ 255 := by omega
  exact clampByte_natCast_toNat hquot

theorem luma_rounded_toNat : (luma true r g b).toNat = (weightedSum r g b + 500) / 1000 := by
  have hsum := weightedSum_le r g b
  have hquot : (weightedSum r g b + 500) / 1000 ≤ 255 := by omega
  exact clampByte_natCast_toNat hquot

/-- Settles O45: the bound of R123 and the two quotients of R120. -/
theorem lumaIsExactWeightedSum : Obligations.LumaIsExactWeightedSum := fun r g b =>
  ⟨weightedSum_le r g b, luma_truncated_toNat r g b, luma_rounded_toNat r g b⟩

/-- A pixel of three equal samples keeps their value: its sum is a whole number of thousands. -/
theorem luma_of_equal_samples (rnd : Bool) (v : Byte) : luma rnd v v v = v := by
  have hsum : weightedSum v v v = 1000 * v.toNat := by
    rw [weightedSum]
    omega
  apply BitVec.eq_of_toNat_eq
  cases rnd
  · rw [luma_truncated_toNat, hsum]
    omega
  · rw [luma_rounded_toNat, hsum]
    omega

/-- Settles O46: white and black are pixels of three equal samples. -/
theorem whiteAndBlack : Obligations.WhiteAndBlack := fun rnd =>
  ⟨luma_of_equal_samples rnd _, luma_of_equal_samples rnd _⟩

end Sys2Proof.Machine
end

section
/-!
The last stage step of a command no host access has raced, and GRAY's (O19): the stage's effect,
then the end of the command.
-/

namespace Sys2Proof.Machine

/-- The last stage of a running command, not raced, ends the command on the stage's effect. -/
theorem exec_lastStage {s : State} {i : Instr} {st : Stage} (hrun : running i s = true)
    (hs : s.latch.stages = [st]) (hst : st ∈ stagesOf i) (hr : s.raced = false) :
    exec i s = .next (finish (stageEffect i st s)) := by
  obtain ⟨-, -, hlatch, -, hraced, -⟩ := stageEffect_frame i st s
  rw [exec_running hrun hs hst, advance_last (hlatch.symm ▸ hs) (hraced.trans hr)]

variable (i : Instr) (st : Stage) (s : State)

theorem ended_finish_stageEffect : Ended s (finish (stageEffect i st s)) := by
  obtain ⟨⟨-, -, herr, hcode⟩, -⟩ := stageEffect_frame i st s
  exact ⟨rfl, rfl, rfl, rfl, herr, hcode⟩

theorem stageFrame_finish_stageEffect : StageFrame s (finish (stageEffect i st s)) := by
  obtain ⟨-, hregs, hlatch, hsur, -⟩ := stageEffect_frame i st s
  refine ⟨hregs, ?_, hsur⟩
  rw [SameOperands, finish_latch, hlatch]

theorem sameBytesOutside_finish_stageEffect :
    SameBytesOutside [stageRange st s.latch] s (finish (stageEffect i st s)) := fun a ha =>
  read_stageEffect_outside ((inRanges_singleton _ a).symm.trans ha)

theorem lumaRasterWritten_grayStage (rnd : Bool) :
    LumaRasterWritten rnd s (grayStage rnd s).mem := by
  intro k hk
  rw [read_grayStage, if_pos (by omega), Nat.add_sub_cancel_left, lumaAt]

/-- Settles O19: GRAY has one stage, so its stage step is its last. -/
theorem grayCompletes : Obligations.GrayCompletes := by
  intro s bz rnd hrun hs hr
  exact ⟨_, exec_lastStage hrun hs (List.mem_singleton_self _) hr,
    lumaRasterWritten_grayStage s rnd, sameBytesOutside_finish_stageEffect _ .gray s,
    ended_finish_stageEffect _ .gray s, stageFrame_finish_stageEffect _ .gray s, rfl, rfl⟩

end Sys2Proof.Machine
end

section
/-!
What a stage's output depends on (O55): two memories that agree on the samples a stage reads give
the same luma, edge and sharpened samples.
-/

namespace Sys2Proof.Machine

/-- Two memories hold the same bytes in a range. -/
def AgreeOn (r : Range) (m m' : Memory) : Prop := ∀ a, r.has a = true → m'.read a = m.read a

theorem AgreeOn.read_eq {r : Range} {m m' : Memory} (h : AgreeOn r m m') {k : Nat}
    (hk : k < r.len) : m'.read (r.base + k) = m.read (r.base + k) :=
  h _ ((r.has_iff _).2 (by omega))

variable {l : Latch} {m m' : Memory}

theorem lumaAt_eq_of_agreeOn (rnd : Bool) (h : AgreeOn l.rgbRange m m') {k : Nat}
    (hk : k < l.pixels) : lumaAt rnd l m' k = lumaAt rnd l m k := by
  have hsample (c : Nat) (hc : c < 3) :
      m'.read (l.rgb.toNat + 3 * k + c) = m.read (l.rgb.toNat + 3 * k + c) := by
    have hlt : 3 * k + c < 3 * l.pixels := by omega
    simpa only [Latch.rgbRange, Nat.add_assoc] using h.read_eq hlt
  rw [lumaAt, lumaAt, hsample 1 (by omega), hsample 2 (by omega)]
  exact congrArg (luma rnd · _ _) (hsample 0 (by omega))

theorem sharpAt_eq_of_agreeOn (hg : AgreeOn l.grayRange m m') (he : AgreeOn l.edgeRange m m')
    {k : Nat} (hk : k < l.pixels) : sharpAt l m' k = sharpAt l m k := by
  have hgray : m'.read (l.gray.toNat + k) = m.read (l.gray.toNat + k) := hg.read_eq hk
  have hedge : m'.read (l.edge.toNat + k) = m.read (l.edge.toNat + k) := he.read_eq hk
  rw [sharpAt, sharpAt, hgray, hedge]

theorem zSample_eq_of_agreeOn (h : AgreeOn l.grayRange m m') {y x : Nat} (hy : y < l.h)
    (hx : x < l.w) : zSample l m' y x = zSample l m y x := by
  have hread : m'.read (l.gray.toNat + y * l.w + x) = m.read (l.gray.toNat + y * l.w + x) := by
    have hlt : y * l.w + x < l.pixels := pixelIndex_lt hy hx
    simpa only [Latch.grayRange, Nat.add_assoc] using h.read_eq hlt
  rw [zSample, zSample, hread]

/-- The edge sample of an interior pixel reads five samples, all of the GRAY raster (R151). -/
theorem edgeAt_eq_of_agreeOn (h : AgreeOn l.grayRange m m') {y x : Nat} (hy : y < l.h)
    (hx : x < l.w) (hb : onBorder l.w l.h (y, x) = false) : edgeAt l m' y x = edgeAt l m y x := by
  obtain ⟨hy1, hyh, hx1, hxw⟩ := onBorder_eq_false.1 hb
  have hz {y' x' : Nat} (hy' : y' < l.h) (hx' : x' < l.w) := zSample_eq_of_agreeOn h hy' hx'
  rw [edgeAt, edgeAt, filterValue_eq_fivePoint l m' hy1 hx1, filterValue_eq_fivePoint l m hy1 hx1]
  simp (disch := omega) only [hz]

variable {s u : State}

theorem grayStage_read_eq (rnd : Bool) (hl : u.latch = s.latch)
    (h : AgreeOn s.latch.rgbRange s.mem u.mem) {a : Nat} (ha : s.latch.grayRange.has a = true) :
    (grayStage rnd u).mem.read a = (grayStage rnd s).mem.read a := by
  have ha' : s.latch.gray.toNat ≤ a ∧ a < s.latch.gray.toNat + s.latch.pixels :=
    (Range.has_iff _ a).1 ha
  rw [read_grayStage, read_grayStage, hl, if_pos ha', if_pos ha',
    lumaAt_eq_of_agreeOn rnd h (by omega)]

theorem sharpenStage_read_eq (hl : u.latch = s.latch)
    (hg : AgreeOn s.latch.grayRange s.mem u.mem) (he : AgreeOn s.latch.edgeRange s.mem u.mem)
    {a : Nat} (ha : s.latch.outRange.has a = true) :
    (sharpenStage u).mem.read a = (sharpenStage s).mem.read a := by
  have ha' : s.latch.out.toNat ≤ a ∧ a < s.latch.out.toNat + s.latch.pixels :=
    (Range.has_iff _ a).1 ha
  rw [read_sharpenStage, read_sharpenStage, hl, if_pos ha', if_pos ha',
    sharpAt_eq_of_agreeOn hg he (by omega)]

/-- A byte of the EDGE range is that of an interior pixel, computed from GRAY, or that of a border
pixel, which is 0 or left as it was. -/
theorem laplaceStage_read_eq {bz : Bool} (hl : u.latch = s.latch)
    (hg : AgreeOn s.latch.grayRange s.mem u.mem)
    (hborder : bz = true ∨ ∀ y x, y < s.latch.h → x < s.latch.w →
      onBorder s.latch.w s.latch.h (y, x) = true →
      u.mem.read (s.latch.edge.toNat + y * s.latch.w + x) =
        s.mem.read (s.latch.edge.toNat + y * s.latch.w + x))
    {a : Nat} (ha : s.latch.edgeRange.has a = true) :
    (laplaceStage bz u).mem.read a = (laplaceStage bz s).mem.read a := by
  have ha' : s.latch.edge.toNat ≤ a ∧ a < s.latch.edge.toNat + s.latch.w * s.latch.h :=
    (Range.has_iff _ a).1 ha
  obtain ⟨y, x, hy, hx, hk⟩ :=
    exists_pixel_of_lt (w := s.latch.w) (h := s.latch.h) (i := a - s.latch.edge.toNat) (by omega)
  obtain rfl : a = s.latch.edge.toNat + y * s.latch.w + x := by omega
  cases hb : onBorder s.latch.w s.latch.h (y, x) with
  | false =>
    have hu := read_laplaceStage_interior bz u (hl ▸ hy) (hl ▸ hx) (hl ▸ hb)
    rw [hl] at hu
    rw [hu, read_laplaceStage_interior bz s hy hx hb, edgeAt_eq_of_agreeOn hg hy hx hb]
  | true =>
    have hu := read_laplaceStage_border bz u (hl ▸ hy) (hl ▸ hx) (hl ▸ hb)
    rw [hl] at hu
    rw [hu, read_laplaceStage_border bz s hy hx hb]
    rcases hborder with rfl | hsame
    · rfl
    · rw [hsame y x hy hx hb]

/-- Settles O55, one stage at a time. -/
theorem stageOutputDependsOnInputOnly : Obligations.StageOutputDependsOnInputOnly := by
  intro s u bz rnd hl
  exact ⟨fun h _ => grayStage_read_eq rnd hl h,
    fun hg hborder _ => laplaceStage_read_eq hl hg hborder,
    fun h _ => sharpenStage_read_eq hl (fun a ha => h a (.inl ha)) (fun a ha => h a (.inr ha))⟩

end Sys2Proof.Machine
end

section
/-!
The filter value (O47 to O50): each fact follows from the five-point sum of R143, whose terms are
the Z samples of the pixel and of its 4-neighbours.
-/

namespace Sys2Proof.Machine

/-- Settles O47: the sum of R143, worked out. -/
theorem filterIsFivePointStencil : Obligations.FilterIsFivePointStencil :=
  fun l m _ _ => filterValue_eq_fivePoint l m

/-- Settles O48: each of the five samples lies between 0 and 255. -/
theorem filterValueBounds : Obligations.FilterValueBounds := by
  intro l m y x hy _ hx _
  rw [filterValue_eq_fivePoint l m hy hx]
  have hcentre := (zSample l m y x).isLt
  have habove := (zSample l m (y - 1) x).isLt
  have hbelow := (zSample l m (y + 1) x).isLt
  have hleft := (zSample l m y (x - 1)).isLt
  have hright := (zSample l m y (x + 1)).isLt
  omega

variable {l : Latch} {m : Memory}

/-- Every interior pixel of the GRAY raster holds the value `c`. -/
def FlatInterior (l : Latch) (m : Memory) (c : Byte) : Prop :=
  ∀ y x, onBorder l.w l.h (y, x) = false → y < l.h → x < l.w →
    m.read (l.gray.toNat + y * l.w + x) = c

/-- On a flat interior the Z sample of a pixel is the level, counted once for an interior pixel and
not at all for a border pixel. -/
theorem FlatInterior.zSample_toNat {c : Byte} (hflat : FlatInterior l m c) {y x : Nat}
    (hy : y < l.h) (hx : x < l.w) :
    (zSample l m y x).toNat = (if !onBorder l.w l.h (y, x) then 1 else 0) * c.toNat := by
  cases hb : onBorder l.w l.h (y, x)
  · simp [zSample, hb, hflat y x hb hy hx]
  · simp [zSample, hb]

/-- Settles O49: the four neighbours take the level away once for each interior one. -/
theorem flatFieldFilter : Obligations.FlatFieldFilter := by
  intro l m c y x hflat hy hy' hx hx'
  have hz {r k : Nat} (hr : r < l.h) (hk : k < l.w) := FlatInterior.zSample_toNat hflat hr hk
  have hcentre : onBorder l.w l.h (y, x) = false := onBorder_eq_false.2 (by omega)
  rw [filterValue_eq_fivePoint l m hy hx]
  simp (disch := omega) only [hz, hcentre, Bool.not_false, if_true, List.countP_cons,
    List.countP_nil]
  push_cast
  ring

theorem zSample_eq_of_read_eq {m' : Memory} {y x : Nat}
    (h : m.read (l.gray.toNat + y * l.w + x) = m'.read (l.gray.toNat + y * l.w + x)) :
    zSample l m y x = zSample l m' y x := by rw [zSample, zSample, h]

/-- Settles O50: the diagonal samples do not occur in the five-point sum. -/
theorem filterReadsFiveSamples : Obligations.FilterReadsFiveSamples := by
  intro l m m' y x hy _ hx _ hread
  simp only [List.forall_mem_cons, List.not_mem_nil, false_implies, implies_true, and_true] at hread
  obtain ⟨hcentre, habove, hbelow, hleft, hright⟩ := hread
  rw [edgeAt, edgeAt, filterValue_eq_fivePoint l m hy hx, filterValue_eq_fivePoint l m' hy hx,
    zSample_eq_of_read_eq hcentre, zSample_eq_of_read_eq habove, zSample_eq_of_read_eq hbelow,
    zSample_eq_of_read_eq hleft, zSample_eq_of_read_eq hright]

end Sys2Proof.Machine
end

section
/-!
LAPLACE's stage step (O20, O52): the edge raster it writes, and the rasters too small to have an
interior, of which it writes the border alone.
-/

namespace Sys2Proof.Machine

/-- The bytes of the EDGE range after the LAPLACE stage, interior and border (R144, R145). -/
theorem edgeRasterWritten_laplaceStage (bz : Bool) (s : State) :
    EdgeRasterWritten bz s (laplaceStage bz s).mem := by
  refine ⟨fun y x hy hy' hx hx' => ?_, fun y x => read_laplaceStage_border bz s⟩
  have hinterior : onBorder s.latch.w s.latch.h (y, x) = false := onBorder_eq_false.2 (by omega)
  rw [read_laplaceStage_interior bz s (by omega) (by omega) hinterior, edgeAt, clampSaturates,
    filterValue_eq_fivePoint s.latch s.mem hy hx]

/-- Settles O20: LAPLACE has one stage, so its stage step is its last. -/
theorem laplaceCompletes : Obligations.LaplaceCompletes := by
  intro s bz rnd hrun hs hr
  exact ⟨_, exec_lastStage hrun hs (List.mem_singleton_self _) hr,
    edgeRasterWritten_laplaceStage bz s, sameBytesOutside_finish_stageEffect _ .laplace s,
    ended_finish_stageEffect _ .laplace s, stageFrame_finish_stageEffect _ .laplace s⟩

/-- A raster of fewer than three rows or columns is all border (R147). -/
theorem onBorder_of_small {w h y x : Nat} (hsmall : w < 3 ∨ h < 3) (hy : y < h) (hx : x < w) :
    onBorder w h (y, x) = true := onBorder_eq_true.2 (by omega)

theorem interiorCells_of_small {l : Latch} (m : Memory) (hsmall : l.w < 3 ∨ l.h < 3) :
    interiorCells l m = [] := by
  refine List.eq_nil_iff_forall_not_mem.2 fun c hc => ?_
  obtain ⟨y, x, hy, hx, hinterior, -⟩ := mem_interiorCells.1 hc
  exact Bool.false_ne_true (hinterior.symm.trans (onBorder_of_small hsmall hy hx))

theorem laplaceStage_mem_of_small {s : State} (hsmall : s.latch.w < 3 ∨ s.latch.h < 3) :
    (laplaceStage false s).mem = s.mem := by
  simp [laplaceCells, borderCells, interiorCells_of_small s.mem hsmall]

theorem read_laplaceStage_of_small {s : State} (hsmall : s.latch.w < 3 ∨ s.latch.h < 3) {k : Nat}
    (hk : k < s.latch.pixels) : (laplaceStage true s).mem.read (s.latch.edge.toNat + k) = 0#8 := by
  obtain ⟨y, x, hy, hx, rfl⟩ := exists_pixel_of_lt hk
  rw [← Nat.add_assoc]
  exact read_laplaceStage_border true s hy hx (onBorder_of_small hsmall hy hx)

/-- Settles O52: with no interior, BZ alone decides what the stage writes. -/
theorem smallRasterHasNoInterior : Obligations.SmallRasterHasNoInterior := by
  intro s bz rnd hrun hs hr hsmall
  refine ⟨_, exec_lastStage hrun hs (List.mem_singleton_self _) hr,
    ended_finish_stageEffect _ .laplace s, ?_, ?_⟩
  · rintro rfl
    exact laplaceStage_mem_of_small hsmall
  · rintro rfl k hk
    exact read_laplaceStage_of_small hsmall hk

end Sys2Proof.Machine
end

section
/-!
SHARPEN's stage step (O21, O53, O54): the sample it writes, the raster of them, and the raster under
a zero edge.
-/

namespace Sys2Proof.Machine

/-- Settles O53: a sum of two samples is never negative, so the lower bound of R7 does nothing. -/
theorem sharpenedSampleIsClampedSum : Obligations.SharpenedSampleIsClampedSum := by
  intro l m i
  have hclamp := clampSaturates
    (((m.read (l.gray.toNat + i)).toNat : Int) + (m.read (l.edge.toNat + i)).toNat)
  rw [sharpAt]
  omega

/-- SHARPEN leaves the luma sample where the edge sample is 0 (R173). -/
theorem sharpAt_of_zero_edge {l : Latch} {m : Memory} {i : Nat}
    (hzero : m.read (l.edge.toNat + i) = 0#8) : sharpAt l m i = m.read (l.gray.toNat + i) := by
  have hle : (m.read (l.gray.toNat + i)).toNat ≤ 255 := Nat.le_of_lt_succ (m.read _).isLt
  apply BitVec.eq_of_toNat_eq
  rw [sharpenedSampleIsClampedSum, hzero, BitVec.toNat_zero, Nat.add_zero, Nat.min_eq_left hle]

variable {s : State}

theorem read_sharpenStage_pixel {i : Nat} (hi : i < s.latch.pixels) :
    (sharpenStage s).mem.read (s.latch.out.toNat + i) = sharpAt s.latch s.mem i := by
  rw [read_sharpenStage, if_pos (by omega), Nat.add_sub_cancel_left]

/-- Every byte of the OUT range is written, border included (R172). -/
theorem sharpRasterWritten_sharpenStage : SharpRasterWritten s (sharpenStage s).mem := by
  intro i hi
  rw [read_sharpenStage_pixel hi, sharpAt, clampSaturates]

/-- Settles O21: SHARPEN has one stage, so its stage step is its last. -/
theorem sharpenCompletes : Obligations.SharpenCompletes := by
  intro s bz rnd hrun hs hr
  exact ⟨_, exec_lastStage hrun hs (List.mem_singleton_self _) hr,
    sharpRasterWritten_sharpenStage, sameBytesOutside_finish_stageEffect _ .sharpen s,
    ended_finish_stageEffect _ .sharpen s, stageFrame_finish_stageEffect _ .sharpen s, rfl, rfl⟩

/-- Settles O54: each byte of the OUT range is the sample of a pixel whose edge sample is 0. -/
theorem zeroEdgeGivesOriginal : Obligations.ZeroEdgeGivesOriginal := by
  intro s bz rnd hrun hs hr hzero
  refine ⟨_, exec_lastStage hrun hs (List.mem_singleton_self _) hr, fun i hi => ?_⟩
  exact (read_sharpenStage_pixel hi).trans (sharpAt_of_zero_edge (hzero i hi))

end Sys2Proof.Machine
end

section
/-!
A step from a good state never stops (O30): every host operation inside device memory answers, the
block agent finds a stage of the running command, and the rest of the host's program stays inside.
-/

namespace Sys2Proof.Machine

variable {s t : State} {op : HostOp}

/-- A program with no further operation stays inside the same device memory. -/
theorem HostInMemory.of_subset (h : HostInMemory s) (hsub : t.host ⊆ s.host)
    (hp : t.platform = s.platform) : HostInMemory t := fun op hop => hp ▸ h op (hsub hop)

/-! What the host's operations leave of the host's program and the platform -/

theorem startAction_hostSide (h : startAction s = .next t) :
    t.host = s.host ∧ t.platform = s.platform := by
  rcases startAction_cases h with
    ⟨-, rfl⟩ | ⟨-, _, -, rfl⟩ | ⟨-, _, -, ⟨-, rfl⟩ | ⟨-, -, rfl⟩ | ⟨_, -, -, rfl⟩⟩ <;>
    exact ⟨rfl, rfl⟩

theorem regWrite_hostSide {size : BitVec 3} {off : BitVec 8} {v : Word}
    (h : regWrite size off v s = .next t) : t.host = s.host ∧ t.platform = s.platform := by
  rcases regWrite_cases h with
    rfl | ⟨-, -, hstart⟩ | ⟨-, rfl⟩ | ⟨-, -, rfl⟩ | ⟨-, _, _, _, _, _, _, _, rfl⟩
  · exact ⟨rfl, rfl⟩
  · exact startAction_hostSide (s := { s with ie := v.getLsbD 1 }) hstart
  all_goals exact ⟨rfl, rfl⟩

/-- Everything a HostMemRead can do: the byte, or a draw that marks the command as raced. -/
theorem hostMemRead_of_lt {a : Nat} (ha : a < s.platform.memSize) :
    hostMemRead a s = .next (addReply (.mem a (s.mem.read a)) s) ∨
    hostMemRead a s = .next (addReply (.mem a (Config.freeByte s.draws))
      { s with raced := true, draws := s.draws + 1 }) := by
  cases hw : s.busy && inRanges s.latch.written a
  · exact .inl (hostMemRead_of_allowed ha (Bool.and_eq_false_iff.1 hw))
  · exact .inr (by simp [hostMemRead, ha, hw])

@[simp] theorem assertReset_host (s : State) : (assertReset s).host = s.host := by
  cases hb : s.busy <;> simp [assertReset, hb]

@[simp] theorem assertReset_platform (s : State) : (assertReset s).platform = s.platform := by
  cases hb : s.busy <;> simp [assertReset, hb]

/-- A host operation that stays inside device memory answers a next state. It leaves the platform,
and adds no operation to the program but a failed POLL, which is put back (R102). -/
theorem performOp_inMemory (hop : op.inMemory s.platform.memSize) :
    ∃ t, performOp op s = .next t ∧ t.platform = s.platform ∧ t.host ⊆ op :: s.host := by
  have hkept : s.host ⊆ op :: s.host := List.subset_cons_self ..
  cases op with
  | regWrite size off v =>
    obtain ⟨t, ht⟩ := regWrite_next size off v s
    obtain ⟨hh, hp⟩ := regWrite_hostSide ht
    exact ⟨t, ht, hp, hh ▸ hkept⟩
  | regRead size off => exact ⟨_, rfl, rfl, hkept⟩
  | memWrite a v => exact ⟨_, hostMemWrite_of_lt v hop, rfl, hkept⟩
  | memRead a =>
    rcases hostMemRead_of_lt hop with ht | ht <;> exact ⟨_, ht, rfl, hkept⟩
  | poll off mask v =>
    by_cases hv : regRead 4#3 off s &&& mask = v
    · exact ⟨s, if_pos hv, rfl, hkept⟩
    · exact ⟨_, if_neg hv, rfl, List.Subset.refl _⟩
  | waitIrq => exact ⟨s, rfl, rfl, hkept⟩
  | setReset asserted =>
    cases asserted
    · exact ⟨_, rfl, rfl, hkept⟩
    · exact ⟨_, rfl, assertReset_platform s, assertReset_host s ▸ hkept⟩

/-- The block agent of a good state that is BUSY runs a stage of the latched command. -/
theorem blockStep_of_inv (h : Inv s) (hb : s.busy = true) :
    ∃ i st, blockStep s = .next (advance (stageEffect i st s)) := by
  obtain ⟨i, hrun, hne, hsuf⟩ := h.busyRuns hb
  obtain ⟨st, rest, hs⟩ := List.exists_cons_of_ne_nil hne
  have hst : st ∈ stagesOf i := hsuf.subset (by simp [hs])
  obtain ⟨-, hd, -⟩ := (running_iff i s).1 hrun
  exact ⟨i, st, by simp only [blockStep, hd, exec_running hrun hs hst]⟩

/-- Settles O30, by the agent that moves. -/
theorem goodStatesNeverStop : Obligations.GoodStatesNeverStop := by
  intro s hinv hhost
  rcases step_cases s with
    ⟨-, hstep⟩ | ⟨-, op, rest, ts, hops, hstep⟩ | ⟨-, hb, -, ts, hstep⟩
  · exact ⟨s, hstep, hhost⟩
  · have hop : op.inMemory s.platform.memSize := hhost op (by simp [hops])
    obtain ⟨t, ht, hp, hsub⟩ := performOp_inMemory (s := { s with turns := ts, host := rest }) hop
    exact ⟨t, hstep.trans ht, hhost.of_subset (hops ▸ hsub) hp⟩
  · obtain ⟨i, st, ht⟩ := blockStep_of_inv (hinv.withHostSide s.host ts) hb
    obtain ⟨⟨-, -, hp, -, hh, -⟩, -⟩ := advance_stageEffect_frame i st { s with turns := ts }
    exact ⟨_, hstep.trans ht, hhost.of_subset (fun _ ho => hh ▸ ho) hp⟩

end Sys2Proof.Machine
end

section
/-!
The START action and the block agent's turn (O5, O6, O11, O16, O17): which of them a step is, and
what a START answers for a command that needs no stage or is not accepted.
-/

namespace Sys2Proof.Machine

variable {s : State}

/-- A RegWrite to CTRL with bit 0 = 1 stores IE and performs START (R190). -/
theorem regWrite_ctrl_of_start (hr : s.inReset = false) {v : Word} (hv : v.getLsbD 0 = true) :
    regWrite 4#3 0x00#8 v s = startAction { s with ie := v.getLsbD 1 } :=
  (regWrite_offset .ctrl v hr).trans (if_pos hv)

/-- While the core is idle a host that can move performs its next operation. -/
theorem step_of_idle {op : HostOp} {rest : List HostOp} (hb : s.busy = false)
    (hready : s.hostReady = true) (hh : s.host = op :: rest) :
    step s = performOp op { s with host := rest } := by
  simp [step, agentStep, State.mover, State.takeTurn, State.blockReady, hostStep, hb, hready, hh]

/-- The step that performs a START write of an idle core is the START action. -/
theorem step_start {v : Word} {rest : List HostOp} (hb : s.busy = false) (hr : s.inReset = false)
    (hh : s.host = .regWrite 4#3 0x00#8 v :: rest) (hv : v.getLsbD 0 = true) :
    step s = startAction { s with host := rest, ie := v.getLsbD 1 } := by
  rw [step_of_idle hb (by simp [State.hostReady, hh]) hh]
  exact regWrite_ctrl_of_start (s := { s with host := rest }) hr hv

theorem startAction_of_illegal {why : IllegalWord} (hb : s.busy = false)
    (hd : decode s.cmd = .illegal why) :
    startAction s = .next (reject .illegalCmd (acceptStart s)) := by
  have hlatched : decode (acceptStart s).latch.cmd = .illegal why := hd
  simp [startAction, hb, hlatched]

/-- Settles O5: the step is the START action, which decodes the word of CMD. -/
theorem startStepRunsDecodedCommand : Obligations.StartStepRunsDecodedCommand := by
  intro s v rest hb hr hh hv
  rw [step_start hb hr hh hv]
  exact ⟨fun _ => startAction_of_command (s := { s with host := rest, ie := v.getLsbD 1 }) hb,
    fun _ => startAction_of_illegal (s := { s with host := rest, ie := v.getLsbD 1 }) hb⟩

/-- Settles O6: the turn used up is no part of the latched command. -/
theorem blockStepRunsLatchedCommand : Obligations.BlockStepRunsLatchedCommand := by
  intro s i hm hd
  have hd' : decode s.takeTurn.latch.cmd = .command i := by rw [takeTurn_eq]; exact hd
  simp only [step, agentStep, hm, blockStep, hd']

/-- Settles O11: the CTRL write stores IE, and the START it performs finds BUSY = 1. -/
theorem startWhileBusyIsOverrun : Obligations.StartWhileBusyIsOverrun := by
  intro s v hb hr hv
  exact (regWrite_ctrl_of_start hr hv).trans (if_pos hb)

/-- Settles O16: an idle step of a command with operands is its issue, the checks being passed. -/
theorem idleExecIssues : Obligations.IdleExecIssues := by
  intro s i hb ho hc
  refine ⟨issueStages i s, ?_, ?_⟩
  · rw [exec_idle hb ho, issueOrReject_of_noError hc]
  · simp [State.stage, StageFrame, SameRegisters, SameOperands, SameSurroundings]

/-- Settles O17: NOP completes on the accepted state, whose status is clear. -/
theorem nopCompletesAtStart : Obligations.NopCompletesAtStart := by
  intro s bz rnd hb
  refine ⟨exec_nop bz rnd hb, fun hd => ⟨completeAtStart (acceptStart s), ?_, ?_⟩⟩
  · rw [startAction_of_command hb hd]
    exact exec_nop bz rnd hb
  · simp [acceptStart, stage_of_idle, hb, SameRegisters, SameSurroundings]

end Sys2Proof.Machine
end

section
/-!
After a START the core stays BUSY or DONE (O18): START sets one of the flags, a stage step trades
BUSY for DONE, and of the host's operations only those that clear DONE can leave both 0.
-/

namespace Sys2Proof.Machine

variable {s t : State}

/-- START leaves BUSY or DONE set: an overrun finds the core BUSY, an issue makes it BUSY, and a
rejection or NOP's completion sets DONE. -/
theorem startAction_busy_or_done (h : startAction s = .next t) :
    t.busy = true ∨ t.done = true := by
  rcases startAction_cases h with
    ⟨hb, rfl⟩ | ⟨-, _, -, rfl⟩ | ⟨-, _, -, ⟨-, rfl⟩ | ⟨-, -, rfl⟩ | ⟨_, -, -, rfl⟩⟩
  · exact .inl hb
  · exact .inr rfl
  · exact .inr rfl
  · exact .inl rfl
  · exact .inr rfl

/-- A RegWrite that does not clear DONE keeps the core BUSY or DONE. -/
theorem regWrite_busy_or_done {size : BitVec 3} {off : BitVec 8} {v : Word}
    (hop : (HostOp.regWrite size off v).clearsDone = false) (hs : s.busy = true ∨ s.done = true)
    (h : regWrite size off v s = .next t) : t.busy = true ∨ t.done = true := by
  by_cases hsize : size = 4#3
  case neg =>
    rw [regWrite_of_notActs (by simp [regAccessActs, hsize])] at h
    cases h; exact hs
  rcases regWrite_cases h with
    rfl | ⟨-, -, hstart⟩ | ⟨-, rfl⟩ | ⟨-, hoff, rfl⟩ | ⟨-, _, _, _, _, _, _, _, rfl⟩
  · exact hs
  · exact startAction_busy_or_done hstart
  · exact hs
  · have hbit : v.getLsbD 1 = false := by simpa [HostOp.clearsDone, hsize, hoff] using hop
    simpa only [acknowledge_busy, acknowledge_done, hbit, Bool.not_false, Bool.and_true] using hs
  · exact hs

/-- An operation of the host that does not clear DONE keeps the core BUSY or DONE. -/
theorem performOp_busy_or_done {op : HostOp} (hop : op.clearsDone = false)
    (hs : s.busy = true ∨ s.done = true) (h : performOp op s = .next t) :
    t.busy = true ∨ t.done = true := by
  cases op with
  | regWrite size off v => exact regWrite_busy_or_done hop hs h
  | regRead size off => cases h; exact hs
  | memWrite a v =>
    simp only [performOp, hostMemWrite] at h
    split at h <;> cases h
    exact hs
  | memRead a =>
    simp only [performOp, hostMemRead] at h
    split at h
    · split at h <;> cases h <;> exact hs
    · exact nomatch h
  | poll off mask v =>
    simp only [performOp] at h
    split at h <;> cases h <;> exact hs
  | waitIrq => cases h; exact hs
  | setReset asserted =>
    cases asserted
    · cases h; exact hs
    · exact nomatch hop

/-- The sequencer's advance ends the command with DONE = 1 or goes on with BUSY as it was (R197). -/
theorem advance_busy_or_done (hb : s.busy = true) :
    (advance s).busy = true ∨ (advance s).done = true := by
  rcases advance_cases s with ⟨heq, -⟩ | ⟨heq, -⟩ | ⟨-, heq⟩ <;> rw [heq]
  · exact .inr rfl
  · exact .inr rfl
  · exact .inl hb

/-- Settles O18: the START, and then a step by the agent that moves. -/
theorem startIsNeverMissed : Obligations.StartIsNeverMissed := by
  refine ⟨fun _ _ => startAction_busy_or_done, fun s t ht hs hclear => ?_⟩
  rcases step_cases s with
    ⟨-, hstep⟩ | ⟨hm, op, rest, ts, hops, hstep⟩ | ⟨-, hb, -, ts, hstep⟩ <;> rw [hstep] at ht
  · cases ht; exact hs
  · exact performOp_busy_or_done (s := { s with turns := ts, host := rest })
      (hclear hm op rest hops) hs ht
  · obtain ⟨i, st, -, -, -, -, rfl⟩ := blockStep_cases (s := { s with turns := ts }) hb ht
    obtain ⟨⟨hbusy, -⟩, -⟩ := stageEffect_frame i st { s with turns := ts }
    exact advance_busy_or_done (hbusy.trans hb)

end Sys2Proof.Machine
end

section
/-!
The checks of PIPELINE (O26): its ranges and its pairs of ranges are those of GRAY, LAPLACE and
SHARPEN taken together.
-/

namespace Sys2Proof.Machine

/-- PIPELINE uses a range exactly when one of its three commands does (R234). -/
theorem mem_usedRanges_pipeline (bz rnd : Bool) (l : Latch) (r : Range) :
    r ∈ usedRanges (.pipeline bz rnd) l ↔ r ∈ usedRanges (.gray bz rnd) l ∨
      r ∈ usedRanges (.laplace bz rnd) l ∨ r ∈ usedRanges (.sharpen bz rnd) l := by
  simp only [usedRanges, List.mem_cons, List.not_mem_nil, or_false]
  tauto

/-- PIPELINE's pairs are those of its three commands (R235). -/
theorem mem_overlapPairs_pipeline (bz rnd : Bool) (l : Latch) (q : Range × Range) :
    q ∈ overlapPairs (.pipeline bz rnd) l ↔ q ∈ overlapPairs (.gray bz rnd) l ∨
      q ∈ overlapPairs (.laplace bz rnd) l ∨ q ∈ overlapPairs (.sharpen bz rnd) l := by
  simp only [overlapPairs, List.mem_cons, List.not_mem_nil, or_false]

/-- Settles O26: each check of PIPELINE passes exactly when it passes for all three commands. -/
theorem pipelineRejectedIffOneOfThree : Obligations.PipelineRejectedIffOneOfThree := by
  intro l p bz rnd
  have haccepted : checkOperands (.pipeline bz rnd) l p = .noError ↔
      checkOperands (.gray bz rnd) l p = .noError ∧
      checkOperands (.laplace bz rnd) l p = .noError ∧
      checkOperands (.sharpen bz rnd) l p = .noError := by
    iterate 4 rw [checkOperands_noError_iff l p rfl]
    simp only [mem_usedRanges_pipeline, mem_overlapPairs_pipeline, or_imp, forall_and]
    tauto
  rw [Ne, haccepted]
  tauto

end Sys2Proof.Machine
end

section
/-!
The line-buffered engine (O27): before each pixel of the scan the line buffers hold the last two
rows above it and the window the last two columns before it, so what the engine writes at pixel
(y, x) is the filter value of pixel (y-1, x-1), and those pixels are the interior ones in order.
-/

namespace Sys2Proof.Machine

variable {l : Latch} {m : Memory} {e : Engine} {y x : Nat}

/-! What the engine holds during a scan -/

/-- Of the Z samples of column `x` in rows 0 to `rows`-1, LB1 holds the last and LB0 the one before
it (R200). -/
def LinesHold (l : Latch) (m : Memory) (e : Engine) (rows x : Nat) : Prop :=
  (∀ y, y + 1 = rows → e.lb1.entry x = zSample l m y x) ∧
  (∀ y, y + 2 = rows → e.lb0.entry x = zSample l m y x)

/-- A window column holds the Z samples of column `x` in row `y` and the two rows above it. -/
def ColumnHolds (l : Latch) (m : Memory) (y x : Nat) (top mid new : Byte) : Prop :=
  new = zSample l m y x ∧ (∀ k, k + 1 = y → mid = zSample l m k x) ∧
  (∀ k, k + 2 = y → top = zSample l m k x)

/-- The engine before it takes pixel (y, x) of a scan: columns already visited in row `y` count one
row more, and the window holds the two columns visited last, as far as there are any. -/
structure ScanAt (l : Latch) (m : Memory) (e : Engine) (y x : Nat) : Prop where
  lines : ∀ j, j < l.w → LinesHold l m e (if j < x then y + 1 else y) j
  newest : ∀ j, j + 1 = x → ColumnHolds l m y j e.window.w02 e.window.w12 e.window.w22
  middle : ∀ j, j + 2 = x → ColumnHolds l m y j e.window.w01 e.window.w11 e.window.w21

/-- The engine after it takes the Z sample of pixel (y, x). -/
def Engine.after (l : Latch) (m : Memory) (e : Engine) (y x : Nat) : Engine :=
  e.take y x (zSample l m y x)

/-- Whatever it holds, the engine stands before the first pixel. -/
theorem scanAt_start (l : Latch) (m : Memory) (e : Engine) : ScanAt l m e 0 0 where
  lines _ _ := by simp [LinesHold]
  newest := by simp
  middle := by simp

/-- The column the window takes at pixel (y, x) holds the pixel and the two samples above it. -/
theorem ScanAt.columnHolds (h : ScanAt l m e y x) (hx : x < l.w) :
    ColumnHolds l m y x (e.lb0.entry x) (e.lb1.entry x) (zSample l m y x) := by
  obtain ⟨hnewer, holder⟩ := h.lines x hx
  rw [if_neg (Nat.lt_irrefl x)] at hnewer holder
  exact ⟨rfl, hnewer, holder⟩

/-- Taking the sample of pixel (y, x) moves its column of the line buffers down by one row. -/
theorem ScanAt.linesHold_take (h : ScanAt l m e y x) (hx : x < l.w) {j : Nat} (hj : j < l.w) :
    LinesHold l m (e.after l m y x) (if j < x + 1 then y + 1 else y) j := by
  obtain ⟨-, hmid, -⟩ := h.columnHolds hx
  by_cases hjx : j = x
  · subst hjx
    simp only [LinesHold, Engine.after, Engine.take, LineBuffer.entry_store, if_pos,
      Nat.lt_succ_self]
    exact ⟨fun k hk => by rw [Nat.succ.inj hk], fun k hk => hmid k (Nat.succ.inj hk)⟩
  · have hlines := h.lines j hj
    have hiff : j < x + 1 ↔ j < x := by omega
    simpa only [LinesHold, Engine.after, Engine.take, LineBuffer.entry_store, if_neg hjx, hiff]
      using hlines

/-- The engine goes on to the next pixel of the row. -/
theorem ScanAt.take (h : ScanAt l m e y x) (hx : x < l.w) :
    ScanAt l m (e.after l m y x) y (x + 1) where
  lines _ hj := h.linesHold_take hx hj
  newest j hj := by
    obtain rfl := Nat.succ.inj hj
    exact h.columnHolds hx
  middle j hj := h.newest j (Nat.succ.inj hj)

/-- At the end of a row the engine stands before the next one. -/
theorem ScanAt.nextRow (h : ScanAt l m e y l.w) : ScanAt l m e (y + 1) 0 where
  lines j hj := by simpa [hj] using h.lines j hj
  newest := by simp
  middle := by simp

/-! What the engine writes -/

/-- The write of LAPLACE at pixel (y, x) (R144). -/
def edgeCell (l : Latch) (m : Memory) (y x : Nat) : Host.Cell :=
  (l.edge.toNat + y * l.w + x, edgeAt l m y x)

/-- The write of the engine at pixel (y, x): that of LAPLACE at pixel (y-1, x-1), from the
third row and column on (R201, R202). -/
def emitted (l : Latch) (m : Memory) (y x : Nat) : List Host.Cell :=
  if 2 ≤ y ∧ 2 ≤ x then [edgeCell l m (y - 1) (x - 1)] else []

/-- After pixel (y+2, x+2) the window is the neighbourhood of pixel (y+1, x+1). -/
theorem ScanAt.filterValue_take (h : ScanAt l m e (y + 2) (x + 2)) (hx : x + 2 < l.w) :
    (e.after l m (y + 2) (x + 2)).window.filterValue = filterValue l m (y + 1) (x + 1) := by
  obtain ⟨-, hright, -⟩ := h.columnHolds hx
  obtain ⟨hbelow, hcentre, habove⟩ := h.newest (x + 1) rfl
  obtain ⟨-, hleft, -⟩ := h.middle x rfl
  rw [filterValue_eq_fivePoint l m (by omega) (by omega)]
  simp only [Window.filterValue, Engine.after, Engine.take, Window.shift, Nat.add_sub_cancel,
    hright (y + 1) rfl, hbelow, hcentre (y + 1) rfl, habove y rfl, hleft (y + 1) rfl]

theorem ScanAt.emit_take (h : ScanAt l m e y x) (hx : x < l.w) :
    (e.after l m y x).emit l y x = emitted l m y x := by
  rw [Engine.emit, emitted]
  split
  · next hin =>
    obtain ⟨y, rfl⟩ := Nat.exists_eq_add_of_le' hin.1
    obtain ⟨x, rfl⟩ := Nat.exists_eq_add_of_le' hin.2
    rw [h.filterValue_take hx]
    rfl
  · rfl

/-- The first `n` pixels of row `y`. -/
def rowPixels (y n : Nat) : List Pixel := (List.range n).map (fun x => (y, x))

theorem rowPixels_succ (y n : Nat) : rowPixels y (n + 1) = rowPixels y n ++ [(y, n)] := by
  simp [rowPixels, List.range_succ]

/-- A scan of one pixel takes its sample and writes what the engine writes there. -/
theorem Engine.scan_singleton (l : Latch) (m : Memory) (e : Engine) (y x : Nat) :
    Engine.scan l m [(y, x)] e = (e.after l m y x, (e.after l m y x).emit l y x) := by
  simp [Engine.scan, Engine.after]

/-- A scan of a row, pixel by pixel. -/
theorem ScanAt.scan_row (h : ScanAt l m e y 0) {n : Nat} (hn : n ≤ l.w) :
    ScanAt l m (Engine.scan l m (rowPixels y n) e).1 y n ∧
    (Engine.scan l m (rowPixels y n) e).2 =
      (rowPixels y n).flatMap (fun p => emitted l m p.1 p.2) := by
  induction n with
  | zero => exact ⟨h, rfl⟩
  | succ n ih =>
    obtain ⟨hat, hwrites⟩ := ih (Nat.le_of_succ_le hn)
    rw [rowPixels_succ, Engine.scan_append, Engine.scan_singleton, List.flatMap_append, hwrites,
      hat.emit_take hn]
    exact ⟨hat.take hn, by simp⟩

/-- A scan of a raster, row by row. -/
theorem scan_rasterPixels (l : Latch) (m : Memory) (e : Engine) (h : Nat) :
    ScanAt l m (Engine.scan l m (rasterPixels l.w h) e).1 h 0 ∧
    (Engine.scan l m (rasterPixels l.w h) e).2 =
      (rasterPixels l.w h).flatMap (fun p => emitted l m p.1 p.2) := by
  induction h with
  | zero => exact ⟨scanAt_start l m e, rfl⟩
  | succ h ih =>
    obtain ⟨hat, hwrites⟩ := ih
    obtain ⟨hend, hrow⟩ := hat.scan_row (Nat.le_refl l.w)
    rw [rasterPixels_succ, Engine.scan_append, List.flatMap_append, hwrites]
    exact ⟨hend.nextRow, congrArg _ hrow⟩

/-! The interior pixels in raster order -/

/-- Counting one late from 2 on reaches the same indices, in the same order, as counting those
strictly between the first and the last. -/
theorem flatMap_range_late {α : Type} (n : Nat) (f : Nat → List α) :
    (List.range n).flatMap (fun k => if 2 ≤ k then f (k - 1) else []) =
      (List.range n).flatMap (fun k => if 1 ≤ k ∧ k + 1 ≠ n then f k else []) := by
  cases n with
  | zero => rfl
  | succ n =>
    rw [List.range_succ_eq_map, List.flatMap_cons, List.flatMap_map, ← List.range_succ_eq_map,
      List.range_succ, List.flatMap_append]
    simp only [Nat.succ_eq_add_one, Nat.add_sub_cancel]
    have hsame : ∀ k ∈ List.range n, (if 2 ≤ k + 1 then f k else []) =
        if 1 ≤ k ∧ k + 1 ≠ n + 1 then f k else [] := fun k hk => by
      have hlt := List.mem_range.1 hk
      have hiff : 2 ≤ k + 1 ↔ 1 ≤ k ∧ k + 1 ≠ n + 1 := by omega
      simp only [hiff]
    rw [List.flatMap_congr hsame]
    simp

/-- The writes of a raster are those of its rows. -/
theorem flatMap_rasterPixels {α : Type} (w h : Nat) (f : Pixel → List α) :
    (rasterPixels w h).flatMap f =
      (List.range h).flatMap (fun y => (List.range w).flatMap (fun x => f (y, x))) := by
  simp [rasterPixels, List.flatMap_assoc, List.flatMap_map]

theorem map_filter_eq_flatMap {α β : Type} (p : α → Bool) (f : α → β) (as : List α) :
    (as.filter p).map f = as.flatMap (fun a => if p a then [f a] else []) := by
  induction as with
  | nil => rfl
  | cons a as ih => cases hp : p a <;> simp [hp, ih]

theorem flatMap_ite {α β : Type} (c : Prop) [Decidable c] (f : α → List β) (as : List α) :
    as.flatMap (fun a => if c then f a else []) = if c then as.flatMap f else [] := by
  split <;> simp

/-- The interior writes of LAPLACE, row by row. -/
theorem interiorCells_eq_rows (l : Latch) (m : Memory) :
    interiorCells l m = (List.range l.h).flatMap (fun y => if 1 ≤ y ∧ y + 1 ≠ l.h then
      (List.range l.w).flatMap (fun x => if 1 ≤ x ∧ x + 1 ≠ l.w then [edgeCell l m y x] else [])
      else []) := by
  rw [interiorCells, map_filter_eq_flatMap, flatMap_rasterPixels]
  simp only [← flatMap_ite, ← ite_and, Bool.not_eq_true', onBorder_eq_false, and_assoc]
  rfl

/-- The writes of the engine, row by row, come one row and one column late. -/
theorem flatMap_emitted (l : Latch) (m : Memory) :
    (rasterPixels l.w l.h).flatMap (fun p => emitted l m p.1 p.2) = interiorCells l m := by
  have hrow (y : Nat) := flatMap_range_late l.w (fun x => [edgeCell l m y x])
  rw [interiorCells_eq_rows, ← flatMap_range_late, flatMap_rasterPixels]
  simp only [← hrow]
  simp only [emitted, ite_and, flatMap_ite]

/-- Settles O27: the scan writes the interior pixels in raster order, and the border zeros follow as
in LAPLACE. -/
theorem lineBufferedEngineWritesLaplace : Obligations.LineBufferedEngineWritesLaplace := by
  intro bz l m e
  rw [engineCells, laplaceCells, (scan_rasterPixels l m e l.h).2, flatMap_emitted]

end Sys2Proof.Machine
end

section
/-!
PIPELINE's stage steps (O22): each runs the head of L.stages, and the sequencer goes on to the next
stage or ends the command.
-/

namespace Sys2Proof.Machine

/-- The sequencer goes on to the stages given (R197). -/
def withStages (sts : List Stage) (s : State) : State :=
  { s with latch := { s.latch with stages := sts } }

/-- A stage of a running command that is not its last leaves the sequencer at the next one. -/
theorem exec_moreStages {i : Instr} {st : Stage} {s : State} {next : Stage} {rest : List Stage}
    (hrun : running i s = true) (hs : s.latch.stages = st :: next :: rest) (hst : st ∈ stagesOf i) :
    exec i s = .next (withStages (next :: rest) (stageEffect i st s)) := by
  obtain ⟨-, -, hlatch, -⟩ := stageEffect_frame i st s
  rw [exec_running hrun hs hst, advance_more (hlatch.symm ▸ hs), withStages]

variable (i : Instr) (st : Stage) (s : State) (sts : List Stage)

theorem goesOn_withStages_stageEffect (hb : s.busy = true) :
    GoesOn sts s (withStages sts (stageEffect i st s)) := by
  obtain ⟨⟨hbusy, hstatus⟩, -, -, -, hraced, -⟩ := stageEffect_frame i st s
  exact ⟨⟨hbusy, hstatus⟩, rfl, stage_of_busy (hbusy.trans hb), hraced⟩

theorem stageFrame_withStages_stageEffect : StageFrame s (withStages sts (stageEffect i st s)) := by
  obtain ⟨-, hregs, hlatch, hsur, -⟩ := stageEffect_frame i st s
  refine ⟨hregs, ?_, hsur⟩
  rw [SameOperands, withStages, hlatch]

theorem sameBytesOutside_withStages_stageEffect :
    SameBytesOutside [stageRange st s.latch] s (withStages sts (stageEffect i st s)) := fun a ha =>
  read_stageEffect_outside ((inRanges_singleton _ a).symm.trans ha)

theorem mem_stagesOf_pipeline (bz rnd : Bool) (st : Stage) : st ∈ stagesOf (.pipeline bz rnd) := by
  cases st <;> simp [stagesOf]

/-- Settles O22, by the stage at the head of L.stages. -/
theorem pipelineStagesInOrder : Obligations.PipelineStagesInOrder := by
  intro s bz rnd hrun
  have hb := running_busy hrun
  refine ⟨fun hs => ?_, fun hs => ?_, fun hs hr => ?_⟩
  · exact ⟨_, exec_moreStages hrun hs (mem_stagesOf_pipeline ..), lumaRasterWritten_grayStage s rnd,
      sameBytesOutside_withStages_stageEffect _ .gray s _, goesOn_withStages_stageEffect _ _ s _ hb,
      stageFrame_withStages_stageEffect _ _ s _⟩
  · exact ⟨_, exec_moreStages hrun hs (mem_stagesOf_pipeline ..),
      edgeRasterWritten_laplaceStage bz s, sameBytesOutside_withStages_stageEffect _ .laplace s _,
      goesOn_withStages_stageEffect _ _ s _ hb, stageFrame_withStages_stageEffect _ _ s _⟩
  · exact ⟨_, exec_lastStage hrun hs (mem_stagesOf_pipeline ..) hr, sharpRasterWritten_sharpenStage,
      sameBytesOutside_finish_stageEffect _ .sharpen s, ended_finish_stageEffect _ .sharpen s,
      stageFrame_finish_stageEffect _ .sharpen s⟩

end Sys2Proof.Machine
end

section
/-!
PIPELINE from START to DONE (O24): the START and the three stage steps of a host that has no further
operation, and what the three memories they leave hold, byte by byte.
-/

namespace Sys2Proof.Machine

variable {i : Instr} {s t u : State}

/-! The four steps -/

theorem SameOperands.trans (hst : SameOperands s t) (htu : SameOperands t u) :
    SameOperands s u := by
  rw [SameOperands] at hst htu ⊢
  rw [← htu] at hst
  exact hst

/-- The latch of a state with the same operands differs in L.stages at most. -/
theorem SameOperands.latch_eq (h : SameOperands s t) :
    t.latch = { s.latch with stages := t.latch.stages } := by
  rw [← h]

/-- A command that goes on is still running. -/
theorem running_of_goesOn {sts : List Stage} (hrun : running i s = true) (hgo : GoesOn sts s t)
    (hframe : StageFrame s t) : running i t = true := by
  obtain ⟨hb, hd, hc⟩ := (running_iff i s).1 hrun
  obtain ⟨⟨hbusy, -⟩, -⟩ := hgo
  obtain ⟨-, hops, hplat, -⟩ := hframe
  refine (running_iff i t).2 ⟨hbusy.trans hb, ?_, ?_⟩
  · rw [hops.latch_eq]; exact hd
  · rw [hops.latch_eq, hplat, checkOperands_withStages]; exact hc

/-- With a host that has nothing left to do, a step is the stage of the running command. -/
theorem step_of_running_noHost (hrun : running i s = true) (hn : s.inReset = false)
    (hh : s.host = []) : step s = exec i s := by
  obtain ⟨hb, hd, -⟩ := (running_iff i s).1 hrun
  have hready : s.hostReady = false := by simp [State.hostReady, hh]
  have hm : s.mover = some .block := by simp [State.mover, State.blockReady, hready, hb, hn]
  have ht : s.takeTurn = s := by simp [State.takeTurn, hready]
  rw [blockStepRunsLatchedCommand s i hm hd, ht]

/-- The memories PIPELINE on the latched command of `s` leaves: `luma` after its GRAY stage, `edge`
after LAPLACE, `sharp` after SHARPEN. -/
structure PipelineMemories (bz rnd : Bool) (s : State) (luma edge sharp : Memory) : Prop where
  lumaWritten : LumaRasterWritten rnd s luma
  lumaOutside : ∀ a, s.latch.grayRange.has a = false → luma.read a = s.mem.read a
  edgeWritten : EdgeRasterWritten bz { s with mem := luma } edge
  edgeOutside : ∀ a, s.latch.edgeRange.has a = false → edge.read a = luma.read a
  sharpWritten : SharpRasterWritten { s with mem := edge } sharp
  sharpOutside : ∀ a, s.latch.outRange.has a = false → sharp.read a = edge.read a

/-- LAPLACE's raster depends on the operands and the memory only, not on the stages left. -/
theorem EdgeRasterWritten.of_sameOperands {bz : Bool} {m : Memory} (hops : SameOperands s t)
    (h : EdgeRasterWritten bz t m) : EdgeRasterWritten bz { s with mem := t.mem } m := by
  rw [EdgeRasterWritten, hops.latch_eq] at h
  exact h

theorem SharpRasterWritten.of_sameOperands {m : Memory} (hops : SameOperands s t)
    (h : SharpRasterWritten t m) : SharpRasterWritten { s with mem := t.mem } m := by
  rw [SharpRasterWritten, hops.latch_eq] at h
  exact h

theorem SameBytesOutside.read_eq {r : Range} (h : SameBytesOutside [r] s t) {a : Nat}
    (ha : r.has a = false) : t.mem.read a = s.mem.read a := h a ((inRanges_singleton r a).trans ha)

/-- The three stage steps of an issued PIPELINE, with a host that has nothing left to do. -/
theorem run_pipelineStages {bz rnd : Bool} (hrun : running (.pipeline bz rnd) s = true)
    (hs : s.latch.stages = [.gray, .laplace, .sharpen]) (hraced : s.raced = false)
    (hn : s.inReset = false) (hh : s.host = []) :
    ∃ luma edge t, Host.Core.run Sys2Proof.core 3 s = .next t ∧ Ended s t ∧
      PipelineMemories bz rnd s luma edge t.mem := by
  obtain ⟨hgray, -, -⟩ := pipelineStagesInOrder s bz rnd hrun
  obtain ⟨s1, hexec1, hluma, hout1, hgo1, hframe1⟩ := hgray hs
  have hrun1 := running_of_goesOn hrun hgo1 hframe1
  obtain ⟨⟨-, -, herr1, hcode1⟩, hs1, -, hraced1⟩ := hgo1
  obtain ⟨-, hops1, -, hn1, hh1, -⟩ := hframe1
  obtain ⟨-, hlaplace, -⟩ := pipelineStagesInOrder s1 bz rnd hrun1
  obtain ⟨s2, hexec2, hedge, hout2, hgo2, hframe2⟩ := hlaplace hs1
  have hrun2 := running_of_goesOn hrun1 hgo2 hframe2
  obtain ⟨⟨-, -, herr2, hcode2⟩, hs2, -, hraced2⟩ := hgo2
  obtain ⟨-, hops2, -, hn2, hh2, -⟩ := hframe2
  obtain ⟨-, -, hsharpen⟩ := pipelineStagesInOrder s2 bz rnd hrun2
  obtain ⟨t, hexec3, hsharp, hout3, hend, -⟩ :=
    hsharpen hs2 (hraced2.trans (hraced1.trans hraced))
  have hstep1 := (step_of_running_noHost hrun hn hh).trans hexec1
  have hstep2 := (step_of_running_noHost hrun1 (hn1.trans hn) (hh1.trans hh)).trans hexec2
  have hstep3 := (step_of_running_noHost hrun2 (hn2.trans (hn1.trans hn))
    (hh2.trans (hh1.trans hh))).trans hexec3
  refine ⟨s1.mem, s2.mem, t, ?_, ?_, ?_⟩
  · rw [run_succ hstep1, run_succ hstep2, run_succ hstep3, run_zero]
  · obtain ⟨hbusy, hdone, hstage, hsts, herr, hcode⟩ := hend
    exact ⟨hbusy, hdone, hstage, hsts, herr.trans (herr2.trans herr1),
      hcode.trans (hcode2.trans hcode1)⟩
  · rw [hops1.latch_eq] at hout2
    rw [(hops1.trans hops2).latch_eq] at hout3
    exact {
      lumaWritten := hluma
      lumaOutside := fun _ => hout1.read_eq
      edgeWritten := hedge.of_sameOperands hops1
      edgeOutside := fun _ => hout2.read_eq
      sharpWritten := hsharp.of_sameOperands (hops1.trans hops2)
      sharpOutside := fun _ => hout3.read_eq }

/-- The START write of an idle core issues the command whose checks pass (R192). -/
theorem step_start_issues {v : Word} {rest : List HostOp} (hb : s.busy = false)
    (hr : s.inReset = false) (hh : s.host = .regWrite 4#3 0x00#8 v :: rest)
    (hv : v.getLsbD 0 = true) (hd : decode s.cmd = .command i) (ho : hasOperands i = true)
    (hc : checkOperands i (acceptStart s).latch s.platform = .noError) :
    step s = .next (issueStages i (acceptStart { s with host := rest, ie := v.getLsbD 1 })) := by
  obtain ⟨hstep, -⟩ := startStepRunsDecodedCommand s v rest hb hr hh hv
  rw [hstep i hd, exec_idle (by exact hb) ho]
  exact congrArg _ (issueOrReject_of_noError hc)

/-! The rasters -/

/-- The Z raster of the luma samples of the RGB raster in `m` (R140, R206). -/
def pipelineZ (rnd : Bool) (l : Latch) (m : Memory) (y x : Nat) : Int :=
  if onBorder l.w l.h (y, x) then 0 else (lumaAt rnd l m (y * l.w + x)).toNat

/-- The edge raster of the RGB raster in `m`; under BZ = 0 its border is what `m` holds there
(R145). -/
def pipelineEdge (bz rnd : Bool) (l : Latch) (m : Memory) (y x : Nat) : Int :=
  if onBorder l.w l.h (y, x) then
    (if bz then 0 else (m.read (l.edge.toNat + y * l.w + x)).toNat)
  else min 255 (max 0 (4 * pipelineZ rnd l m y x - pipelineZ rnd l m (y - 1) x -
    pipelineZ rnd l m (y + 1) x - pipelineZ rnd l m y (x - 1) - pipelineZ rnd l m y (x + 1)))

theorem Range.meets_comm (r q : Range) : r.meets q = q.meets r := Bool.and_comm ..

theorem Range.has_eq_false_of_meets {r q : Range} (h : r.meets q = false) {a : Nat}
    (ha : r.has a = true) : q.has a = false := by
  rw [Range.meets_eq_false] at h
  rw [Range.has_iff] at ha
  rw [← Bool.not_eq_true, Range.has_iff]
  omega

/-- The ranges an accepted PIPELINE writes lie apart (R235). -/
theorem pipeline_writes_apart {bz rnd : Bool} {l : Latch} {p : Platform}
    (hc : checkOperands (.pipeline bz rnd) l p = .noError) :
    l.grayRange.meets l.edgeRange = false ∧ l.grayRange.meets l.outRange = false ∧
    l.edgeRange.meets l.outRange = false := by
  obtain ⟨-, -, hpairs⟩ := checkOperands_noError hc rfl
  simp only [overlapPairs, List.forall_mem_cons] at hpairs
  obtain ⟨-, hedgeGray, houtGray, houtEdge, -⟩ := hpairs
  exact ⟨(Range.meets_comm ..).trans hedgeGray, (Range.meets_comm ..).trans houtGray,
    (Range.meets_comm ..).trans houtEdge⟩

/-- Byte `k` of a range. -/
theorem Range.has_add {r : Range} {k : Nat} (hk : k < r.len) : r.has (r.base + k) = true :=
  (r.has_iff _).2 (by omega)

theorem edgeRange_has_pixel {l : Latch} {y x : Nat} (hy : y < l.h) (hx : x < l.w) :
    l.edgeRange.has (l.edge.toNat + y * l.w + x) = true := by
  rw [Nat.add_assoc]
  exact Range.has_add (pixelIndex_lt hy hx)

namespace PipelineMemories

variable {bz rnd : Bool} {luma edge sharp : Memory}

theorem zSample_luma (h : PipelineMemories bz rnd s luma edge sharp) {y x : Nat}
    (hy : y < s.latch.h) (hx : x < s.latch.w) :
    ((zSample s.latch luma y x).toNat : Int) = pipelineZ rnd s.latch s.mem y x := by
  have hpixel := h.lumaWritten _ (pixelIndex_lt hy hx)
  rw [← Nat.add_assoc] at hpixel
  rw [zSample, pipelineZ, hpixel]
  split <;> rfl

/-- The edge raster, from the bytes the GRAY stage left. -/
theorem read_edge (h : PipelineMemories bz rnd s luma edge sharp)
    (hapart : s.latch.grayRange.meets s.latch.edgeRange = false) {y x : Nat}
    (hy : y < s.latch.h) (hx : x < s.latch.w) :
    ((edge.read (s.latch.edge.toNat + y * s.latch.w + x)).toNat : Int) =
      pipelineEdge bz rnd s.latch s.mem y x := by
  obtain ⟨hinterior, hborder⟩ := h.edgeWritten
  cases hb : onBorder s.latch.w s.latch.h (y, x)
  · obtain ⟨hy1, hyh, hx1, hxw⟩ := onBorder_eq_false.1 hb
    have hz {y x : Nat} (hy : y < s.latch.h) (hx : x < s.latch.w) := h.zSample_luma hy hx
    have hy2 : y + 1 < s.latch.h := by omega
    have hx2 : x + 1 < s.latch.w := by omega
    rw [hinterior y x hy1 hy2 hx1 hx2, pipelineEdge, hb]
    simp (disch := omega) only [hz, Bool.false_eq_true, if_false]
  · have hkept := h.lumaOutside _ (Range.has_eq_false_of_meets ((Range.meets_comm ..).trans hapart)
      (edgeRange_has_pixel hy hx))
    rw [hborder y x hy hx hb, pipelineEdge, hb]
    cases bz
    · simp [hkept]
    · rfl

/-- The edge raster is still there when PIPELINE ends: SHARPEN writes elsewhere. -/
theorem read_edge_end (h : PipelineMemories bz rnd s luma edge sharp)
    (hgray : s.latch.grayRange.meets s.latch.edgeRange = false)
    (hout : s.latch.edgeRange.meets s.latch.outRange = false) {y x : Nat}
    (hy : y < s.latch.h) (hx : x < s.latch.w) :
    ((sharp.read (s.latch.edge.toNat + y * s.latch.w + x)).toNat : Int) =
      pipelineEdge bz rnd s.latch s.mem y x := by
  rw [h.sharpOutside _ (Range.has_eq_false_of_meets hout (edgeRange_has_pixel hy hx)),
    h.read_edge hgray hy hx]

/-- The luma raster is still there when PIPELINE ends: the later stages write elsewhere. -/
theorem read_gray (h : PipelineMemories bz rnd s luma edge sharp)
    (hedge : s.latch.grayRange.meets s.latch.edgeRange = false)
    (hout : s.latch.grayRange.meets s.latch.outRange = false) {k : Nat} (hk : k < s.latch.pixels) :
    edge.read (s.latch.gray.toNat + k) = lumaAt rnd s.latch s.mem k ∧
    sharp.read (s.latch.gray.toNat + k) = lumaAt rnd s.latch s.mem k := by
  have hin : s.latch.grayRange.has (s.latch.gray.toNat + k) = true := Range.has_add hk
  have hluma := (h.edgeOutside _ (Range.has_eq_false_of_meets hedge hin)).trans (h.lumaWritten k hk)
  exact ⟨hluma, (h.sharpOutside _ (Range.has_eq_false_of_meets hout hin)).trans hluma⟩

theorem read_sharp (h : PipelineMemories bz rnd s luma edge sharp)
    (hedge : s.latch.grayRange.meets s.latch.edgeRange = false)
    (hout : s.latch.grayRange.meets s.latch.outRange = false) {y x : Nat}
    (hy : y < s.latch.h) (hx : x < s.latch.w) :
    ((sharp.read (s.latch.out.toNat + y * s.latch.w + x)).toNat : Int) =
      min 255 (max 0 ((lumaAt rnd s.latch s.mem (y * s.latch.w + x)).toNat +
        pipelineEdge bz rnd s.latch s.mem y x)) := by
  have hk : y * s.latch.w + x < s.latch.pixels := pixelIndex_lt hy hx
  have hpixel := h.sharpWritten _ hk
  obtain ⟨hgray, -⟩ := h.read_gray hedge hout hk
  rw [Nat.add_assoc, hpixel, ← h.read_edge hedge hy hx, hgray, Nat.add_assoc]

/-- A byte outside the three write ranges is what it was before the first stage (R208). -/
theorem read_outside (h : PipelineMemories bz rnd s luma edge sharp) {a : Nat}
    (ha : inRanges [s.latch.grayRange, s.latch.edgeRange, s.latch.outRange] a = false) :
    sharp.read a = s.mem.read a := by
  simp only [inRanges_eq_false, List.forall_mem_cons] at ha
  obtain ⟨hgray, hedge, hout, -⟩ := ha
  rw [h.sharpOutside a hout, h.edgeOutside a hedge, h.lumaOutside a hgray]

end PipelineMemories

/-- Settles O24: the START issues the command, its three stages run, and the memories they leave
hold the three rasters. -/
theorem pipelineFromStartToDone : Obligations.PipelineFromStartToDone := by
  intro s v bz rnd hb hr hh hv hd hc l g z e
  have hrunning : running (.pipeline bz rnd) (issueStages (.pipeline bz rnd)
      (acceptStart { s with host := [], ie := v.getLsbD 1 })) = true :=
    (running_iff _ _).2 ⟨rfl, hd, (checkOperands_withStages ..).trans hc⟩
  obtain ⟨luma, edge, t, hrun, ⟨hbusy, hdone, -, -, herr, hcode⟩, hmem⟩ :=
    run_pipelineStages hrunning rfl rfl hr rfl
  obtain ⟨hge, hgo, heo⟩ := pipeline_writes_apart hc
  exact ⟨t, (run_succ (step_start_issues hb hr hh hv hd rfl hc)).trans hrun, hbusy, hdone, herr,
    hcode, fun _ hi => (hmem.read_gray hge hgo hi).2, fun _ _ => hmem.read_edge_end hge heo,
    fun _ _ => hmem.read_sharp hge hgo, fun _ => hmem.read_outside⟩

end Sys2Proof.Machine
end

section
/-!
The checks of an accepted START (O12, O14): each check of R236 names its error when the earlier ones
pass, and a START one of them fails for is the rejection of R240.
-/

namespace Sys2Proof.Machine

variable {s : State} {i : Instr} {l : Latch} {p : Platform} {e : ErrCode}

/-! The order of the checks -/

theorem checkLatch_of_illegal {why : IllegalWord} (hd : decode l.cmd = .illegal why)
    (p : Platform) : checkLatch l p = .illegalCmd := by simp [checkLatch, hd]

theorem checkLatch_of_command (hd : decode l.cmd = .command i) (p : Platform) :
    checkLatch l p = checkOperands i l p := by simp [checkLatch, hd]

/-- A command without operands passes the checks whatever the registers hold (R205, R236). -/
theorem checkOperands_of_noOperands (ho : hasOperands i = false) (l : Latch) (p : Platform) :
    checkOperands i l p = .noError := by simp [checkOperands, ho]

theorem badDim_eq_true (l : Latch) (p : Platform) :
    badDim l p = true ↔ l.w = 0 ∨ l.h = 0 ∨ p.maxWidth < l.w := by
  simp [badDim, or_assoc]

theorem any_not_fits_iff (rs : List Range) (n : Nat) :
    rs.any (fun r => !r.fits n) = true ↔ ∃ r ∈ rs, n < r.base + r.len := by
  simp [Range.fits]

theorem any_meets_iff (qs : List (Range × Range)) :
    qs.any (fun q => q.1.meets q.2) = true ↔
      ∃ q ∈ qs, q.1.base < q.2.base + q.2.len ∧ q.2.base < q.1.base + q.1.len := by
  simp [Range.meets]

/-- The dimensions are the first check of the operands (R233). -/
theorem checkOperands_badDim (ho : hasOperands i = true)
    (hdim : l.w = 0 ∨ l.h = 0 ∨ p.maxWidth < l.w) : checkOperands i l p = .badDim := by
  simp [checkOperands, ho, (badDim_eq_true l p).2 hdim]

/-- With good dimensions, a range that ends past MEM_SIZE is the error (R234). -/
theorem checkOperands_range (ho : hasOperands i = true) (hdim : badDim l p = false)
    (hrange : ∃ r ∈ usedRanges i l, p.memSize < r.base + r.len) :
    checkOperands i l p = .range := by
  rw [checkOperands, (any_not_fits_iff ..).2 hrange]
  simp [ho, hdim]

/-- With good dimensions and every range in memory, a pair that intersects is the error (R235). -/
theorem checkOperands_overlap (ho : hasOperands i = true) (hdim : badDim l p = false)
    (hfits : ∀ r ∈ usedRanges i l, r.base + r.len ≤ p.memSize)
    (hmeet : ∃ q ∈ overlapPairs i l,
      q.1.base < q.2.base + q.2.len ∧ q.2.base < q.1.base + q.1.len) :
    checkOperands i l p = .overlap := by
  have hrange : (usedRanges i l).any (fun r => !r.fits p.memSize) = false := by
    rw [Bool.eq_false_iff, Ne, any_not_fits_iff]
    exact fun ⟨r, hr, hpast⟩ => (hfits r hr).not_gt hpast
  rw [checkOperands, (any_meets_iff _).2 hmeet, hrange]
  simp [ho, hdim]

/-- Settles O12: the word, then the dimensions, the ranges and the pairs of ranges. -/
theorem checksInOrder : Obligations.ChecksInOrder := by
  refine fun l p => ⟨fun _ hd => checkLatch_of_illegal hd p, fun bz rnd hd => ?_,
    fun i hd ho => ?_⟩
  · rw [checkLatch_of_command hd, checkOperands_of_noOperands rfl]
  rw [checkLatch_of_command hd, ← badDim_eq_true, Bool.not_eq_true]
  refine ⟨fun hbad => checkOperands_badDim ho ((badDim_eq_true l p).1 hbad), fun hdim =>
    ⟨checkOperands_range ho hdim, fun hfits => ⟨checkOperands_overlap ho hdim hfits, ?_⟩⟩⟩
  exact fun hapart => (checkOperands_noError_iff l p ho).2 ⟨(badDim_eq_false l p).1 hdim, hfits,
    fun q hq => (Range.meets_eq_false q.1 q.2).2 (hapart q hq)⟩

/-! Rejection -/

theorem issueOrReject_of_error (hc : checkOperands i s.latch s.platform = e)
    (he : e ≠ .noError) : issueOrReject i s = reject e s := by
  rcases issueOrReject_cases i s with ⟨hpass, -⟩ | ⟨_, -, hfail, heq⟩
  · exact absurd (hc.symm.trans hpass) he
  · rw [heq, ← hfail, hc]

/-- An idle core's START for which a check of R236 fails is the rejection of the accepted state. -/
theorem startAction_of_error (hb : s.busy = false)
    (hc : checkLatch (acceptStart s).latch s.platform = e) (he : e ≠ .noError) :
    startAction s = .next (reject e (acceptStart s)) := by
  have hword : (acceptStart s).latch.cmd = s.cmd := rfl
  cases hd : decode s.cmd with
  | illegal why =>
    rw [startAction_of_illegal hb hd, ← hc, checkLatch_of_illegal (hword ▸ hd)]
  | command i =>
    rw [checkLatch_of_command (hword ▸ hd)] at hc
    have ho : hasOperands i = true := by
      by_contra hno
      exact he (hc.symm.trans (checkOperands_of_noOperands (Bool.eq_false_iff.2 hno) ..))
    rw [startAction_of_command hb hd, exec_idle (s := acceptStart s) hb ho,
      issueOrReject_of_error (s := acceptStart s) hc he]

/-- Settles O14: a rejection writes the status flags of the accepted state and nothing else. -/
theorem rejectedStart : Obligations.RejectedStart := by
  intro s e hb hc he
  refine ⟨_, startAction_of_error hb hc he, ?_⟩
  simp [acceptStart, stage_of_idle, hb, SameRegisters, SameSurroundings]

end Sys2Proof.Machine
end

section
/-!
The core while reset is asserted (R261): what a register access does, and O10 with the agent that
`mover_block` rules out.
-/

namespace Sys2Proof.Machine

variable {s : State}

theorem mover_ne_block_of_inReset (hr : s.inReset = true) : s.mover ≠ some .block := by
  intro hm
  obtain ⟨-, hreleased⟩ := mover_block hm
  exact absurd hr (by simp [hreleased])

theorem regWrite_of_inReset (hr : s.inReset = true) (size : BitVec 3) (off : BitVec 8) (v : Word) :
    regWrite size off v s = .next s := by simp [regWrite, hr]

theorem regRead_of_inReset (hr : s.inReset = true) (size : BitVec 3) (off : BitVec 8) :
    regRead size off s = 0#32 := by simp [regRead, hr]

/-- Settles O10: the block agent moves only out of reset, and no register access acts. -/
theorem heldInReset : Obligations.HeldInReset := fun _ hr =>
  ⟨mover_ne_block_of_inReset hr, regWrite_of_inReset hr, regRead_of_inReset hr⟩

end Sys2Proof.Machine
end

section
/-!
Host accesses to device memory (O43, O44): the accesses R79 forbids, and the addresses R60 does not
give device memory.
-/

namespace Sys2Proof.Machine

variable {s : State} {a : Nat}

/-- A host read of a byte the running command writes returns a draw and races the command (R79). -/
theorem hostMemRead_of_written (ha : a < s.platform.memSize) (hb : s.busy = true)
    (hw : inRanges s.latch.written a = true) :
    hostMemRead a s = .next (addReply (.mem a (Config.freeByte s.draws))
      { s with raced := true, draws := s.draws + 1 }) := by
  simp [hostMemRead, ha, hb, hw]

/-- Settles O43: a read of a write range races; a write races when its byte is in a used range. -/
theorem hostAccessToBuffersRaces : Obligations.HostAccessToBuffersRaces := by
  intro s a v hb ha
  refine ⟨fun hw => ⟨_, hostMemRead_of_written ha hb hw, rfl, rfl, rfl, rfl⟩,
    fun hu => ⟨_, hostMemWrite_of_lt v ha, ?_⟩, fun hu => ⟨_, hostMemWrite_of_lt v ha, ?_⟩⟩
  · simp [hb, hu]
  · simp [hu]

/-- Settles O44: both accesses check the address first. -/
theorem accessPastMemoryFaults : Obligations.AccessPastMemoryFaults := fun _ _ _ ha =>
  ⟨if_neg ha.not_gt, if_neg ha.not_gt⟩

end Sys2Proof.Machine
end

section
/-!
The assertion of reset (O9): every register at its reset value, and the write ranges of an abandoned
command spoiled.
-/

namespace Sys2Proof.Machine

variable {s : State}

/-- While the host moves, the step is its next operation, with the turn used up or not. -/
theorem step_of_hostMoves {op : HostOp} {rest : List HostOp} (hm : s.mover = some .host)
    (hh : s.host = op :: rest) :
    ∃ ts, step s = performOp op { s with turns := ts, host := rest } := by
  rcases step_cases s with ⟨hm', -⟩ | ⟨-, op', rest', ts, hh', hstep⟩ | ⟨hm', -⟩
  · simp [hm] at hm'
  · obtain ⟨rfl, rfl⟩ := List.cons.inj (hh.symm.trans hh')
    exact ⟨ts, hstep⟩
  · simp [hm] at hm'

theorem assertReset_mem_of_idle (hb : s.busy = false) : (assertReset s).mem = s.mem := by
  simp [assertReset, hb]

/-- Reset spoils the write ranges of the command it abandons (R263). -/
theorem assertReset_of_busy (hb : s.busy = true) :
    assertReset s = { resetRegisters (spoil s.latch.written s) with inReset := true } := by
  simp [assertReset, hb]

/-- Settles O9: the step is the assertion of reset, which spoils the write ranges of a running
command. -/
theorem resetAbandonsCommand : Obligations.ResetAbandonsCommand := by
  intro s rest hh hm
  obtain ⟨ts, hstep⟩ := step_of_hostMoves hm hh
  refine ⟨_, hstep, rfl, rfl, rfl, rfl, rfl, rfl, ⟨rfl, rfl, rfl, rfl, rfl, rfl, rfl, rfl⟩, rfl,
    rfl, assertReset_platform _, assertReset_host _, fun hb a => ?_, fun hb => ?_⟩
  · rw [if_pos rfl, assertReset_mem_of_idle (by exact hb)]
  · rw [if_pos rfl, assertReset_of_busy (by exact hb)]
    exact ⟨fun a ha => read_spoil_outside ha _, fun a ha => read_spoil_inside ha _⟩

end Sys2Proof.Machine
end

section
/-!
The last stage step of a command, raced or not, and O23: the command ends, and a raced one leaves
draws in its write ranges.
-/

namespace Sys2Proof.Machine

variable {i : Instr} {st : Stage} {s : State}

theorem advance_stageEffect_of_last (hs : s.latch.stages = [st]) :
    advance (stageEffect i st s) = finishRaced (stageEffect i st s) := by
  obtain ⟨-, -, hlatch, -⟩ := stageEffect_frame i st s
  simp [advance, hlatch, hs]

/-- The last stage ends the command, whether the host has raced it or not (R197). -/
theorem ended_advance_stageEffect (hs : s.latch.stages = [st]) :
    Ended s (advance (stageEffect i st s)) := by
  obtain ⟨-, herr, hcode⟩ := advance_stageEffect_frame i st s
  refine ⟨?_, ?_, ?_, ?_, herr, hcode⟩ <;> rw [advance_stageEffect_of_last hs] <;> rfl

/-- Settles O23: the sequencer spoils the write ranges after the last stage and ends the command. -/
theorem racedCommandEndsInDraws : Obligations.RacedCommandEndsInDraws := by
  intro s i last hrun hs hsuf hraced
  have hlast : last ∈ stagesOf i := hsuf.subset (List.mem_singleton_self last)
  obtain ⟨hframe, -⟩ := advance_stageEffect_frame i last s
  obtain ⟨-, -, hlatch, -, hraced', hdraws⟩ := stageEffect_frame i last s
  have hspoil : advance (stageEffect i last s) =
      finish (spoil s.latch.written (stageEffect i last s)) := by
    rw [advance_last_raced (hlatch.symm ▸ hs) (hraced'.trans hraced), hlatch]
  refine ⟨_, exec_running hrun hs hlast, ended_advance_stageEffect hs, by rw [hspoil]; rfl, hframe,
    fun _ => read_advance_stageEffect_outside hrun hlast, fun a ha => ?_⟩
  obtain ⟨k, hfrom, hto, hread⟩ := read_spoil_inside ha (stageEffect i last s)
  rw [hspoil]
  exact ⟨k, hdraws.trans hfrom, hto, hread⟩

end Sys2Proof.Machine
end

section
/-!
The run of a command to its end with the schedule used up (O31): one step per stage left, and the
memory the stages leave when the host races none of them.
-/

namespace Sys2Proof.Machine

variable {i : Instr} {s t u : State}

/-- The memory a stage of a command leaves, by the latched operands and the memory before it. -/
def stageMemory (i : Instr) (l : Latch) (m : Memory) : Stage → Memory
  | .gray => m.writeAll (grayCells (rndOf i) l m)
  | .laplace => m.writeAll (laplaceCells (bzOf i) l m)
  | .sharpen => m.writeAll (sharpenCells l m)

theorem stageEffect_mem (i : Instr) (st : Stage) (s : State) :
    (stageEffect i st s).mem = stageMemory i s.latch s.mem st := by cases st <;> rfl

/-- No stage reads the latched word or L.stages: its modifier bits are those of the command. -/
theorem stageMemory_withWord (i : Instr) (l : Latch) (c : Word) (sts : List Stage) :
    stageMemory i { l with cmd := c, stages := sts } = stageMemory i l := by
  funext m st
  cases st <;> rfl

theorem StageFrame.trans (hst : StageFrame s t) (htu : StageFrame t u) : StageFrame s u := by
  obtain ⟨hregs, hops, hsur⟩ := hst
  obtain ⟨hregs', hops', hsur'⟩ := htu
  rw [SameRegisters] at hregs
  rw [SameSurroundings] at hsur
  refine ⟨?_, hops.trans hops', ?_⟩
  · simpa only [SameRegisters, hregs] using hregs'
  · simpa only [SameSurroundings, hsur] using hsur'

/-- A command that goes on and then ends keeps ERR and ERR_CODE (R238). -/
theorem Ended.of_goesOn {sts : List Stage} (hst : GoesOn sts s t) (htu : Ended t u) :
    Ended s u := by
  obtain ⟨⟨-, -, herr, hcode⟩, -⟩ := hst
  obtain ⟨hbusy, hdone, hstage, hsts, herr', hcode'⟩ := htu
  exact ⟨hbusy, hdone, hstage, hsts, herr'.trans herr, hcode'.trans hcode⟩

/-- A run of the stages left of a running command, in the used-up schedule, ends it. -/
theorem run_stages {sts : List Stage} (hne : sts ≠ []) (hsuf : sts <:+ stagesOf i)
    (hrun : running i s = true) (hs : s.latch.stages = sts) (hn : s.inReset = false)
    (hturns : s.turns = []) :
    ∃ t, Host.Core.run Sys2Proof.core sts.length s = .next t ∧ Ended s t ∧ StageFrame s t ∧
      (s.raced = false → t.mem = sts.foldl (stageMemory i s.latch) s.mem) := by
  induction sts generalizing s with
  | nil => exact absurd rfl hne
  | cons st rest ih =>
    have hst : st ∈ stagesOf i := hsuf.subset List.mem_cons_self
    have hstep := step_running (.inr hturns) hrun hn hs hst
    obtain ⟨hframe, -⟩ := advance_stageEffect_frame i st s
    obtain ⟨-, -, hlatch, -, hraced, -⟩ := stageEffect_frame i st s
    cases rest with
    | nil =>
      refine ⟨_, (run_succ hstep).trans (run_zero _), ended_advance_stageEffect hs, hframe,
        fun hr => ?_⟩
      rw [advance_last (hlatch.symm ▸ hs) (hraced.trans hr), finish_mem, stageEffect_mem]
      rfl
    | cons next rest =>
      have hmore : advance (stageEffect i st s) =
          withStages (next :: rest) (stageEffect i st s) := advance_more (hlatch.symm ▸ hs)
      rw [hmore] at hstep hframe
      have hgo := goesOn_withStages_stageEffect i st s (next :: rest) (running_busy hrun)
      have hrun' := running_of_goesOn hrun hgo hframe
      obtain ⟨-, hops, -, hn', -, hturns', -⟩ := id hframe
      obtain ⟨t, ht, hend, hframe', hmem⟩ := ih (List.cons_ne_nil _ _)
        ((List.suffix_cons _ _).trans hsuf) hrun' rfl (hn'.trans hn) (hturns'.trans hturns)
      refine ⟨t, (run_succ hstep).trans ht, hend.of_goesOn hgo, hframe.trans hframe', fun hr => ?_⟩
      rw [hmem (hraced.trans hr), hops.latch_eq, stageMemory_withWord, List.foldl_cons (a := st),
        ← stageEffect_mem]
      rfl

theorem Inv.released_of_busy (h : Inv s) (hb : s.busy = true) : s.inReset = false := by
  by_contra hreset
  obtain ⟨hidle, -⟩ := h.resetIdle (Bool.not_eq_false _ ▸ hreset)
  exact Bool.false_ne_true (hidle.symm.trans hb)

/-- Settles O31: the invariant names the running command, whose stages left are run. -/
theorem runningCommandEnds : Obligations.RunningCommandEnds := by
  intro s hinv hb hturns
  obtain ⟨i, hrun, hne, hsuf⟩ := hinv.busyRuns hb
  obtain ⟨t, ht, ⟨hbusy, hdone, hstage, -, herr, hcode⟩, -⟩ :=
    run_stages hne hsuf hrun rfl (hinv.released_of_busy hb) hturns
  exact ⟨t, ht, hbusy, hdone, hstage, herr, hcode⟩

end Sys2Proof.Machine
end

section
/-!
`SUBMIT` in the used-up schedule (O25): the word is stored, the START issues its command, the stages
run, and the POLL finds DONE; the memory left depends on the operand registers alone.
-/

namespace Sys2Proof.Machine

variable {i : Instr} {s t u : State}

/-- A run goes on from the state its first part answers. -/
theorem run_add {M : Host.Core} {m n : Nat} {s t : M.State} (h : M.run m s = .next t) :
    M.run (m + n) s = M.run n t := by
  induction m generalizing s with
  | zero => cases h; rw [Nat.zero_add]
  | succ m ih =>
    rw [Nat.succ_add]
    simp only [Host.Core.run] at h ⊢
    split at h
    · exact ih h
    all_goals exact nomatch h

/-- The memory a command leaves that ran from `m` on the latched operands. -/
def commandMemory (i : Instr) (l : Latch) (m : Memory) : Memory :=
  (stagesOf i).foldl (stageMemory i l) m

/-- No agent but the host can move, and the schedule is used up. -/
def Ready (s : State) : Prop := s.busy = false ∧ s.inReset = false ∧ s.turns = []

/-- The registers that hold the operands of the next command, and the platform, hold what they
held. -/
def SameInputs (s t : State) : Prop :=
  t.width = s.width ∧ t.height = s.height ∧ t.rgbAddr = s.rgbAddr ∧ t.grayAddr = s.grayAddr ∧
  t.edgeAddr = s.edgeAddr ∧ t.outAddr = s.outAddr ∧ t.platform = s.platform

theorem SameInputs.trans (hst : SameInputs s t) (htu : SameInputs t u) : SameInputs s u := by
  rw [SameInputs] at hst
  simpa only [SameInputs, hst] using htu

/-- A START of either state latches the same operands; the word may differ. -/
theorem SameInputs.acceptStart_latch (h : SameInputs s t) :
    (acceptStart t).latch = { (acceptStart s).latch with cmd := t.cmd, stages := [] } := by
  obtain ⟨hw, hh, hr, hg, he, ho, -⟩ := h
  simp [acceptStart, hw, hh, hr, hg, he, ho]

theorem SameInputs.commandMemory_eq (h : SameInputs s t) (i : Instr) (m : Memory) :
    commandMemory i (acceptStart t).latch m = commandMemory i (acceptStart s).latch m := by
  rw [h.acceptStart_latch, commandMemory, stageMemory_withWord, commandMemory]

/-- The checks of the operands read neither the word nor L.stages (R236). -/
theorem SameInputs.checkOperands_eq (h : SameInputs s t) (i : Instr) :
    checkOperands i (acceptStart t).latch t.platform =
      checkOperands i (acceptStart s).latch s.platform := by
  rw [h.acceptStart_latch]
  obtain ⟨-, -, -, -, -, -, hp⟩ := h
  rw [hp]
  cases i <;> rfl

/-- A POLL of DONE that finds it set is over (R102). -/
theorem performOp_pollDone (hn : s.inReset = false) (hdone : s.done = true) :
    performOp (.poll 0x04#8 0x00000002#32 0x00000002#32) s = .next s := by
  have hread : regRead 4#3 0x04#8 s &&& 0x00000002#32 = 0x00000002#32 := by
    have hstatus : regRead 4#3 0x04#8 s = s.statusWord := regRead_offset .status hn
    have hbit := BitVec.and_twoPow s.statusWord 1
    rw [statusWord_done, hdone] at hbit
    rw [hstatus]
    exact hbit
  exact if_pos hread

/-- What a submitted and awaited command leaves. -/
structure Submitted (i : Instr) (rest : List HostOp) (s t : State) : Prop where
  ready : Ready t
  host : t.host = rest
  done : t.done = true
  noErr : t.err = false
  inputs : SameInputs s t
  mem : t.mem = commandMemory i (acceptStart s).latch s.mem

/-- The state after the first write of `SUBMIT`: the word is in CMD, and the START is next. -/
def wordWritten (i : Instr) (rest : List HostOp) (s : State) : State :=
  { s with cmd := encode i, host := wr .ctrl 0x00000001#32 ++ waitDone ++ rest }

/-- The state after the START of `SUBMIT`: the command is issued, and the POLL is next. -/
def submitIssued (i : Instr) (rest : List HostOp) (s : State) : State :=
  issueStages i (acceptStart { wordWritten i rest s with host := waitDone ++ rest, ie := false })

variable {rest : List HostOp}

theorem step_submit (hready : Ready s) (hh : s.host = submit (encode i) ++ rest) :
    step s = .next (wordWritten i rest s) := by
  obtain ⟨hb, hn, -⟩ := hready
  rw [step_of_idle hb (by rw [State.hostReady, hh]; rfl) hh]
  exact regWrite_offset .cmd _ hn

theorem sameInputs_wordWritten (i : Instr) (rest : List HostOp) (s : State) :
    SameInputs s (wordWritten i rest s) :=
  ⟨rfl, rfl, rfl, rfl, rfl, rfl, rfl⟩

theorem decode_wordWritten (i : Instr) (rest : List HostOp) (s : State) :
    decode (wordWritten i rest s).cmd = .command i :=
  (decodeIsTheInverseOfEncode _ i).2 rfl

theorem step_wordWritten (hready : Ready s) (ho : hasOperands i = true)
    (hc : checkOperands i (acceptStart s).latch s.platform = .noError) :
    step (wordWritten i rest s) = .next (submitIssued i rest s) := by
  obtain ⟨hb, hn, -⟩ := hready
  exact step_start_issues (s := wordWritten i rest s) hb hn rfl rfl (decode_wordWritten ..) ho
    (((sameInputs_wordWritten ..).checkOperands_eq i).trans hc)

theorem running_submitIssued (rest : List HostOp)
    (hc : checkOperands i (acceptStart s).latch s.platform = .noError) :
    running i (submitIssued i rest s) = true :=
  (running_iff i _).2 ⟨rfl, decode_wordWritten i rest s,
    (checkOperands_withStages ..).trans
      (((sameInputs_wordWritten i rest s).checkOperands_eq i).trans hc)⟩

/-- The issued command runs on the operands the registers held when its word was written. -/
theorem foldl_stageMemory_submitIssued :
    (stagesOf i).foldl (stageMemory i (submitIssued i rest s).latch) s.mem =
      commandMemory i (acceptStart s).latch s.mem := by
  rw [commandMemory, ← stageMemory_withWord i (acceptStart s).latch (encode i) (stagesOf i)]
  rfl

/-- The host submits a command whose checks pass: two writes, its stages, and the POLL. -/
theorem run_submit (hready : Ready s) (hh : s.host = submit (encode i) ++ rest)
    (ho : hasOperands i = true)
    (hc : checkOperands i (acceptStart s).latch s.platform = .noError) :
    ∃ t, Host.Core.run Sys2Proof.core (2 + ((stagesOf i).length + 1)) s = .next t ∧
      Submitted i rest s t := by
  obtain ⟨-, hn, hturns⟩ := id hready
  obtain ⟨u, hstages, ⟨hb', hdone, -, -, herr, -⟩, ⟨hregs, -, hsur⟩, hmem⟩ :=
    run_stages (stagesOf_ne_nil ho) (List.suffix_refl _) (running_submitIssued rest hc)
      rfl hn hturns
  obtain ⟨-, -, hinputs⟩ := hregs
  obtain ⟨hplat, hn', hhost, hturns', -⟩ := hsur
  replace hhost : u.host = .poll 0x04#8 0x00000002#32 0x00000002#32 :: rest := hhost
  have hpoll : step u = .next { u with host := rest } := by
    rw [step_of_idle hb' (by simp [State.hostReady, hhost]) hhost]
    exact performOp_pollDone (s := { u with host := rest }) (hn'.trans hn) hdone
  have hstart : Host.Core.run Sys2Proof.core 2 s = .next (submitIssued i rest s) := by
    rw [run_succ (step_submit hready hh), run_succ (step_wordWritten hready ho hc), run_zero]
  refine ⟨{ u with host := rest }, ?_, ⟨hb', hn'.trans hn, hturns'.trans hturns⟩, rfl, hdone, herr,
    ?_, (hmem rfl).trans foldl_stageMemory_submitIssued⟩
  · rw [run_add hstart, run_add hstages, run_succ hpoll, run_zero]
  · obtain ⟨hw, hht, hr, hg, he, hout⟩ := hinputs
    exact ⟨hw, hht, hr, hg, he, hout, hplat⟩

/-- PIPELINE's stages are those of GRAY, LAPLACE and SHARPEN, one after another (R206). -/
theorem commandMemory_pipeline (bz rnd : Bool) (l : Latch) (m : Memory) :
    commandMemory (.pipeline bz rnd) l m =
      commandMemory (.sharpen bz rnd) l
        (commandMemory (.laplace bz rnd) l (commandMemory (.gray bz rnd) l m)) := rfl

/-- What PIPELINE's checks accept, each of the three commands' does (R207). -/
theorem checkOperands_of_pipeline {bz rnd : Bool} {l : Latch} {p : Platform}
    (hc : checkOperands (.pipeline bz rnd) l p = .noError) :
    checkOperands (.gray bz rnd) l p = .noError ∧ checkOperands (.laplace bz rnd) l p = .noError ∧
      checkOperands (.sharpen bz rnd) l p = .noError := by
  simpa [hc] using (pipelineRejectedIffOneOfThree l p bz rnd).symm

/-- Settles O25: both programs apply the three stages to the same operands. -/
theorem pipelineEqualsThreeCommands : Obligations.PipelineEqualsThreeCommands := by
  intro s bz rnd hquiet hc
  obtain ⟨hb, hn, -, hturns⟩ := hquiet
  obtain ⟨hcg, hcl, hcs⟩ := checkOperands_of_pipeline hc
  obtain ⟨t, hrun, ht⟩ := run_submit (i := .pipeline bz rnd) (rest := [])
    (s := { s with host := submit (encode (.pipeline bz rnd)) }) ⟨hb, hn, hturns⟩ rfl rfl hc
  obtain ⟨u1, hrun1, hu1⟩ := run_submit (i := .gray bz rnd)
    (rest := submit (encode (.laplace bz rnd)) ++ submit (encode (.sharpen bz rnd)))
    (s := { s with host := submit (encode (.gray bz rnd)) ++ submit (encode (.laplace bz rnd)) ++
                           submit (encode (.sharpen bz rnd)) }) ⟨hb, hn, hturns⟩ rfl rfl hcg
  obtain ⟨u2, hrun2, hu2⟩ := run_submit (i := .laplace bz rnd) hu1.ready hu1.host rfl
    ((hu1.inputs.checkOperands_eq _).trans hcl)
  have hin2 := hu1.inputs.trans hu2.inputs
  obtain ⟨u, hrun3, hu⟩ := run_submit (i := .sharpen bz rnd) (rest := []) hu2.ready hu2.host rfl
    ((hin2.checkOperands_eq _).trans hcs)
  refine ⟨t, u, hrun, (run_add hrun1).trans ((run_add hrun2).trans hrun3), ht.host, hu.host,
    ht.done, hu.done, ht.noErr, hu.noErr, ?_⟩
  rw [ht.mem, hu.mem, hu2.mem, hu1.mem, hin2.commandMemory_eq, hu1.inputs.commandMemory_eq,
    commandMemory_pipeline]
  rfl

end Sys2Proof.Machine
end

section
/-!
`withFetchWord` (O7): the START write it places issues the word of CMD.
-/

namespace Sys2Proof.Machine

variable {s : State} {i : Instr}

/-- The four byte lanes of a word make the word again (R68). -/
theorem wordOfLanes_lanes (c : Word) :
    wordOfLanes (c.extractLsb' 0 8) (c.extractLsb' 8 8) (c.extractLsb' 16 8) (c.extractLsb' 24 8) =
      c := by
  rw [wordOfLanes]
  iterate 3 rw [BitVec.extractLsb'_append_extractLsb'_eq_extractLsb' (by rfl)]
  exact BitVec.extractLsb'_eq_self

theorem tableWord_32 (w : Nat) : tableWord 32 w = BitVec.ofNat 32 w :=
  BitVec.eq_of_toNat_eq (by simp [tableWord])

theorem decode_of_decodeTableWord {w : Nat} (h : decodeTableWord 32 w = some i) :
    decode (BitVec.ofNat 32 w) = .command i := by
  simp only [decodeTableWord, tableWord_32, lanesOfWord, decodeBytes, wordOfLanes_lanes] at h
  cases hd : decode (BitVec.ofNat 32 w) with
  | illegal why => simp [hd] at h
  | command j => simpa [hd] using h

/-! The START write's word, with IE kept: bit 0 is START, bit 1 is IE (R27) -/

theorem startWord_start (ie : Bool) : (0#30 ++ BitVec.ofBool ie ++ 1#1).getLsbD 0 = true := by
  cases ie <;> rfl

theorem startWord_ie (ie : Bool) : (0#30 ++ BitVec.ofBool ie ++ 1#1).getLsbD 1 = ie := by
  cases ie <;> rfl

/-- Settles O7: the step is the START of a word that decodes to the command, and IE is kept. -/
theorem fetchedWordRunsNext : Obligations.FetchedWordRunsNext := by
  intro s w i hw
  have hd : decode (s.withFetchWord 32 w).cmd = .command i := by
    rw [State.withFetchWord, tableWord_32]
    exact decode_of_decodeTableWord hw
  obtain ⟨hstep, -⟩ := startStepRunsDecodedCommand (s.withFetchWord 32 w) _ s.host rfl rfl rfl
    (startWord_start s.ie)
  rw [hstep i hd, startWord_ie, State.withFetchWord, tableWord_32]
  rfl

end Sys2Proof.Machine
end
